-- ==== Sys2Proof/Word.lean ====
section
/-! DEFINITION. The machine's word types: the 8-bit byte that every address space is made of (20_memory.md R23) and
the 64-bit word of registers and of linear addresses in 64-bit mode (10_state.md R12, R14; 20_memory.md R35). -/

namespace Sys2Proof

/-- A byte, the unit of addressing in every address space (R7, R23). -/
abbrev Byte := BitVec 8

/-- A 64-bit value: a general register, the instruction pointer, a linear address of 64-bit mode. -/
abbrev Word := BitVec 64

/-- `2^64`, the number of 64-bit linear addresses; an access never passes the last of them (20_memory.md R51). -/
def addressSpace : Nat := 2 ^ 64

end Sys2Proof
end

