-- ==== Sys2Proof/Syntax.lean ====
section
/-! DEFINITION. The abstract syntax: the nine admitted instruction forms of 30_encoding.md R70, one constructor of
`Instr` per row of spec/opcode_table.json, with every field of their encodings (R60 to R67). The ignored bits of a
REX prefix or a SIB byte are kept, so an instruction determines its bytes and its length (entry 23). -/

namespace Sys2Proof

/-- A four-bit general register number (10_state.md R12). -/
abbrev Reg := BitVec 4

/-- RAX, register 0 (R12). -/
def Reg.rax : Reg := 0#4
/-- RSP, register 4, the stack pointer (R12, R13). -/
def Reg.rsp : Reg := 4#4
/-- RBP, register 5 (R12, R13). -/
def Reg.rbp : Reg := 5#4

/-- The six segment registers (10_state.md R16). -/
inductive Seg where
  | es | cs | ss | ds | fs | gs
  deriving DecidableEq, Repr

/-- The four one-bit fields of a REX prefix byte (30_encoding.md R62). -/
structure Rex where
  w : Bool
  r : Bool
  x : Bool
  b : Bool
  deriving DecidableEq, Repr

/-- The legacy prefixes an instruction carries: at most one segment override and at most one `67H`, in either order
(R61). -/
inductive Legacy where
  | none
  | seg (g : Seg)
  | a32
  | segA32 (g : Seg)
  | a32Seg (g : Seg)
  deriving DecidableEq, Repr

/-- The displacement that ModRM `mod` 00, 01 or 10 asks for (R64, R66). -/
inductive Disp where
  | none
  | d8 (v : BitVec 8)
  | d32 (v : BitVec 32)
  deriving DecidableEq, Repr

/-- A memory operand as ModRM with `mod != 11`, SIB and displacement encode it (R64, R65). Register numbers are the
three-bit fields; REX extends them. -/
inductive MemOperand where
  /-- R64 case 4: base register `B ++ rm`, no index. -/
  | base (rm : BitVec 3) (d : Disp)
  /-- R64 case 3: RIP-relative. -/
  | ripRel (d : BitVec 32)
  /-- R65 with a base register. -/
  | sib (scale : BitVec 2) (index base : BitVec 3) (d : Disp)
  /-- R65 without a base register (`mod = 00`, `base = 101`). -/
  | sibNoBase (scale : BitVec 2) (index : BitVec 3) (d : BitVec 32)
  deriving DecidableEq, Repr

/-- The register-or-memory operand of a ModRM byte (R64). -/
inductive RegMem where
  | reg (rm : BitVec 3)
  | mem (m : MemOperand)
  deriving DecidableEq, Repr

/-- The memory offset of opcodes `A1H` and `A3H`: 8 bytes, or 4 bytes with `67H` (R67). -/
inductive Moffs where
  | m64 (v : BitVec 64)
  | m32 (v : BitVec 32)
  deriving DecidableEq, Repr

/-- The admitted instruction forms (R70), in the order of the opcode table. -/
inductive Instr where
  /-- `LEA r64, m`; `a32` says whether it carries `67H`, the one prefix it takes. -/
  | lea (a32 : Bool) (rex : Rex) (reg : BitVec 3) (m : MemOperand)
  /-- `MOV r64, imm64`. -/
  | movImm64 (rex : Rex) (rd : BitVec 3) (imm : BitVec 64)
  /-- `MOV RAX, moffs64`. -/
  | movLoadMoffs (p : Legacy) (rex : Rex) (off : Moffs)
  /-- `MOV moffs64, RAX`. -/
  | movStoreMoffs (p : Legacy) (rex : Rex) (off : Moffs)
  /-- `MOV r64, r/m64`. -/
  | movLoad (p : Legacy) (rex : Rex) (reg : BitVec 3) (rm : RegMem)
  /-- `MOV r/m64, r64`. -/
  | movStore (p : Legacy) (rex : Rex) (reg : BitVec 3) (rm : RegMem)
  /-- `PUSH r64`. -/
  | push (rex : Option Rex) (rd : BitVec 3)
  /-- `POP r64`. -/
  | pop (rex : Option Rex) (rd : BitVec 3)
  /-- `JMP rel8`. -/
  | jmpRel8 (rex : Option Rex) (rel : BitVec 8)
  deriving DecidableEq, Repr

/-- Why bytes are no admitted instruction: the reasons of 30_encoding.md R72, by name. -/
inductive Reject where
  /-- A prefix the subset, or the form, does not take (R61). -/
  | prefixNotAdmitted
  /-- REX followed by a legacy prefix or by a second REX (R62). -/
  | rexMisplaced
  /-- A form that needs `REX.W = 1` without it (R69). -/
  | operandSize32
  /-- LEA with `mod = 11` (R70 form 1). -/
  | leaRegisterOperand
  /-- Any other opcode byte, `0FH` among them. -/
  | opcodeNotAdmitted
  deriving DecidableEq, Repr

/-- What the decoder says of the bytes it was given. -/
inductive Decoded where
  /-- An instruction, and the bytes after it. -/
  | ok (i : Instr) (rest : List Byte)
  /-- Refused by name, whatever bytes follow. -/
  | refuse (r : Reject)
  /-- The bytes given do not decide: the decoder asks for the next one (41_canonical_addressing.md R97). -/
  | more
  deriving DecidableEq, Repr

end Sys2Proof
end

