-- ==== Sys2Proof/WellFormed.lean ====
section
/-! DEFINITION. The checks an instruction of the subset meets (30_encoding.md R64, R65, R67, R69, R70). The decoder
gives only instructions that meet them. Each is a Bool, so that a test can run it. -/

namespace Sys2Proof

/-- The instruction carries `67H` (30_encoding.md R61, R68). -/
def Legacy.hasA32 : Legacy → Bool
  | .none => false
  | .seg _ => false
  | .a32 => true
  | .segA32 _ => true
  | .a32Seg _ => true

/-- The segment override the instruction carries, if any (R61). -/
def Legacy.ovr : Legacy → Option Seg
  | .none => Option.none
  | .seg g => some g
  | .a32 => Option.none
  | .segA32 g => some g
  | .a32Seg g => some g

/-- A memory operand is one the ModRM and SIB bytes can encode: `rm = 100` asks for a SIB byte, `mod = 00` with
`rm = 101` is RIP-relative, and `mod = 00` with SIB `base = 101` has no base register (R64, R65). -/
def MemOperand.wf : MemOperand → Bool
  | .base rm d => rm != 4#3 && !(d == Disp.none && rm == 5#3)
  | .ripRel _ => true
  | .sib _ _ b d => !(d == Disp.none && b == 5#3)
  | .sibNoBase _ _ _ => true

/-- The register form takes no legacy prefix (R70 forms 5 and 6). -/
def RegMem.wf (p : Legacy) : RegMem → Bool
  | .reg _ => p == Legacy.none
  | .mem m => m.wf

/-- A memory offset has the instruction's address size: 4 bytes exactly with `67H` (R67, R68). -/
def Moffs.wf (p : Legacy) : Moffs → Bool
  | .m64 _ => !p.hasA32
  | .m32 _ => p.hasA32

/-- The checks of each form: `REX.W = 1` where R69 and R70 ask for it, and the operands' own checks. -/
def Instr.wf : Instr → Bool
  | .lea _ rex _ m => rex.w && m.wf
  | .movImm64 rex _ _ => rex.w
  | .movLoadMoffs p rex off => rex.w && off.wf p
  | .movStoreMoffs p rex off => rex.w && off.wf p
  | .movLoad p rex _ rm => rex.w && rm.wf p
  | .movStore p rex _ rm => rex.w && rm.wf p
  | .push _ _ => true
  | .pop _ _ => true
  | .jmpRel8 _ _ => true

/-- A well-formed instruction: one the subset's encodings checkBytes. -/
abbrev Instr.WellFormed (i : Instr) : Prop := i.wf = true

end Sys2Proof
end

