-- ==== Sys2Proof/Decode.lean ====
section
/-! DEFINITION. The decoder, total on any bytes and refusing by name, and after it the encoder, both written from
30_encoding.md R60 to R72. A function `decode…` gives `more` when its bytes run out before they decide, which is how
the fetch knows that it must ask for the next byte (41_canonical_addressing.md R97). -/

namespace Sys2Proof

/-- Give the first byte to `k`, or ask for more. -/
def takeByte (bs : List Byte) (k : Byte → List Byte → Decoded) : Decoded :=
  match bs with
  | [] => .more
  | b :: rest => k b rest

/-- Give the next `n` bytes to `k` as one value, lowest byte first (20_memory.md R47). -/
def takeLE : (n : Nat) → List Byte → (BitVec (8 * n) → List Byte → Decoded) → Decoded
  | 0, bs, k => k 0#0 bs
  | n + 1, bs, k => takeByte bs fun b rest => takeLE n rest fun hi rest' => k (hi ++ b) rest'

/-! ### Prefixes (R61, R62) -/

/-- A legacy prefix byte as the subset sorts them (R61). -/
inductive PrefixByte where
  | seg (g : Seg)
  | a32
  /-- `66H`, `F0H`, `F2H`, `F3H`: never admitted. -/
  | refused
  deriving DecidableEq, Repr

/-- The legacy prefix byte values of R61. -/
def prefixByte (b : Byte) : Option PrefixByte :=
  if b = 0x26#8 then some (.seg .es)
  else if b = 0x2E#8 then some (.seg .cs)
  else if b = 0x36#8 then some (.seg .ss)
  else if b = 0x3E#8 then some (.seg .ds)
  else if b = 0x64#8 then some (.seg .fs)
  else if b = 0x65#8 then some (.seg .gs)
  else if b = 0x67#8 then some .a32
  else if b = 0x66#8 then some .refused
  else if b = 0xF0#8 then some .refused
  else if b = 0xF2#8 then some .refused
  else if b = 0xF3#8 then some .refused
  else none

/-- One more prefix byte: at most one segment override and at most one `67H`, in either order (R61). -/
def addPrefix : Legacy → PrefixByte → Option Legacy
  | .none, .seg g => some (.seg g)
  | .none, .a32 => some .a32
  | .seg g, .a32 => some (.segA32 g)
  | .a32, .seg g => some (.a32Seg g)
  | _, _ => none

/-- A REX prefix byte: bits 7:4 are 0100, then W, R, X, B (R62). -/
def rexByte? (b : Byte) : Option Rex :=
  if b.extractLsb' 4 4 = 4#4 then
    some { w := b.getLsbD 3, r := b.getLsbD 2, x := b.getLsbD 1, b := b.getLsbD 0 }
  else none

/-! ### Opcodes (R63, R70) -/

/-- The opcode bytes of the nine forms; `rd` is the opcode's low three bits (R63). -/
inductive Opcode where
  | lea
  | movImm64 (rd : BitVec 3)
  | movLoadMoffs
  | movStoreMoffs
  | movLoad
  | movStore
  | push (rd : BitVec 3)
  | pop (rd : BitVec 3)
  | jmpRel8
  deriving DecidableEq, Repr

/-- The opcode map of the subset (R70). DESIGN CHOICE: three forms carry a register number in the opcode's low three
bits, `B8H+rd`, `50H+rd` and `58H+rd`, as R70's table lists them; R63 says five and names none (entry 30). -/
def opcode? (b : Byte) : Option Opcode :=
  if b = 0x8D#8 then some .lea
  else if b.extractLsb' 3 5 = 0x17#5 then some (.movImm64 (b.extractLsb' 0 3))
  else if b = 0xA1#8 then some .movLoadMoffs
  else if b = 0xA3#8 then some .movStoreMoffs
  else if b = 0x8B#8 then some .movLoad
  else if b = 0x89#8 then some .movStore
  else if b.extractLsb' 3 5 = 0x0A#5 then some (.push (b.extractLsb' 0 3))
  else if b.extractLsb' 3 5 = 0x0B#5 then some (.pop (b.extractLsb' 0 3))
  else if b = 0xEB#8 then some .jmpRel8
  else none

/-- `REX.W = 1` is required (R69). -/
def requireW (rex : Option Rex) (k : Rex → Decoded) : Decoded :=
  match rex with
  | some r => if r.w then k r else .refuse .operandSize32
  | none => .refuse .operandSize32

/-- The form takes no legacy prefix (R61, R70). -/
def requireNoPrefix (p : Legacy) (k : Decoded) : Decoded :=
  if p = Legacy.none then k else .refuse .prefixNotAdmitted

/-! ### ModRM, SIB, displacement, offset (R64 to R67) -/

/-- The displacement of `mod` 00, 01 or 10 (R64). -/
def decodeDisp (mod : BitVec 2) (bs : List Byte) (k : Disp → List Byte → Decoded) : Decoded :=
  if mod = 0#2 then k .none bs
  else if mod = 1#2 then takeLE 1 bs fun v rest => k (.d8 v) rest
  else takeLE 4 bs fun v rest => k (.d32 v) rest

/-- The SIB byte and what follows it (R65). -/
def decodeSib (mod : BitVec 2) (bs : List Byte) (k : MemOperand → List Byte → Decoded) : Decoded :=
  takeByte bs fun sib rest =>
    if mod = 0#2 ∧ sib.extractLsb' 0 3 = 5#3 then
      takeLE 4 rest fun v rest' => k (.sibNoBase (sib.extractLsb' 6 2) (sib.extractLsb' 3 3) v) rest'
    else
      decodeDisp mod rest fun d rest' =>
        k (.sib (sib.extractLsb' 6 2) (sib.extractLsb' 3 3) (sib.extractLsb' 0 3) d) rest'

/-- The ModRM byte's register field and its other operand, the cases in the order of R64. -/
def decodeModRM (bs : List Byte) (k : BitVec 3 → RegMem → List Byte → Decoded) : Decoded :=
  takeByte bs fun m rest =>
    let mod := m.extractLsb' 6 2
    let reg := m.extractLsb' 3 3
    let rm := m.extractLsb' 0 3
    if mod = 3#2 then k reg (.reg rm) rest
    else if rm = 4#3 then decodeSib mod rest fun o rest' => k reg (.mem o) rest'
    else if mod = 0#2 ∧ rm = 5#3 then takeLE 4 rest fun v rest' => k reg (.mem (.ripRel v)) rest'
    else decodeDisp mod rest fun d rest' => k reg (.mem (.base rm d)) rest'

/-- The memory offset at the instruction's address size (R67, R68). -/
def decodeMoffs (p : Legacy) (bs : List Byte) (k : Moffs → List Byte → Decoded) : Decoded :=
  if p.hasA32 then takeLE 4 bs fun v rest => k (.m32 v) rest
  else takeLE 8 bs fun v rest => k (.m64 v) rest

/-! ### The decoder -/

/-- The opcode byte `op` after the prefixes, and the bytes that follow it (R70). DESIGN CHOICE: a prefix
that no form of the opcode takes is named before a missing `REX.W`, and that before what the ModRM byte shows: LEA with
a register operand, or a prefix on a register form of MOV (entry 12). -/
def decodeOpcode (p : Legacy) (rex : Option Rex) (op : Byte) (bs : List Byte) : Decoded :=
  match opcode? op with
  | none => .refuse .opcodeNotAdmitted
  | some .lea =>
    if p.ovr.isSome then .refuse .prefixNotAdmitted
    else requireW rex fun r => decodeModRM bs fun reg rm rest =>
      match rm with
      | .reg _ => .refuse .leaRegisterOperand
      | .mem m => .ok (.lea p.hasA32 r reg m) rest
  | some (.movImm64 rd) =>
    requireNoPrefix p (requireW rex fun r => takeLE 8 bs fun v rest => .ok (.movImm64 r rd v) rest)
  | some .movLoadMoffs => requireW rex fun r => decodeMoffs p bs fun off rest => .ok (.movLoadMoffs p r off) rest
  | some .movStoreMoffs => requireW rex fun r => decodeMoffs p bs fun off rest => .ok (.movStoreMoffs p r off) rest
  | some .movLoad => requireW rex fun r => decodeModRM bs fun reg rm rest =>
      match rm with
      | .reg s => requireNoPrefix p (.ok (.movLoad p r reg (.reg s)) rest)
      | .mem m => .ok (.movLoad p r reg (.mem m)) rest
  | some .movStore => requireW rex fun r => decodeModRM bs fun reg rm rest =>
      match rm with
      | .reg d => requireNoPrefix p (.ok (.movStore p r reg (.reg d)) rest)
      | .mem m => .ok (.movStore p r reg (.mem m)) rest
  | some (.push rd) => requireNoPrefix p (.ok (.push rex rd) bs)
  | some (.pop rd) => requireNoPrefix p (.ok (.pop rex rd) bs)
  | some .jmpRel8 => requireNoPrefix p (takeLE 1 bs fun v rest => .ok (.jmpRel8 rex v) rest)

/-- The byte after a REX prefix: the opcode, never a legacy prefix or a second REX (R62). DESIGN CHOICE: `66H`, `F0H`,
`F2H` and `F3H` after a REX byte are named rex_misplaced by R62 and not prefix_not_admitted by R61 (entry 12); and a REX
byte with W = 0 after a legacy prefix, which no instruction can follow, does not yet decide a refusal, since R72's
reason depends on the opcode byte: that byte is asked for (41_canonical_addressing.md R97; entry 33). -/
def decodeAfterRex (p : Legacy) (rex : Rex) (bs : List Byte) : Decoded :=
  takeByte bs fun b rest =>
    if (prefixByte b).isSome ∨ (rexByte? b).isSome then .refuse .rexMisplaced
    else decodeOpcode p (some rex) b rest

/-- The bytes after the legacy prefixes `p` (R60, R61). -/
def decodeFrom (p : Legacy) : List Byte → Decoded
  | [] => .more
  | b :: rest =>
    match prefixByte b with
    | some k =>
      match addPrefix p k with
      | some p' => decodeFrom p' rest
      | none => .refuse .prefixNotAdmitted
    | none =>
      match rexByte? b with
      | some rex => decodeAfterRex p rex rest
      | none => decodeOpcode p none b rest

/-- The decoder: total on any bytes (R60, R72). -/
def decode (bs : List Byte) : Decoded := decodeFrom .none bs

/-! ### The encoder, from the same tables (R60 to R67) -/

/-- The `n` bytes of a value, lowest first (20_memory.md R47). -/
def leBytes : (n : Nat) → BitVec (8 * n) → List Byte
  | 0, _ => []
  | n + 1, v => v.extractLsb' 0 8 :: leBytes n (v.extractLsb' 8 (8 * n))

/-- The segment override prefix byte (R61). -/
def segPrefix : Seg → Byte
  | .es => 0x26#8
  | .cs => 0x2E#8
  | .ss => 0x36#8
  | .ds => 0x3E#8
  | .fs => 0x64#8
  | .gs => 0x65#8

/-- The legacy prefix bytes, in the order the instruction carries them (R61). -/
def encodeLegacy : Legacy → List Byte
  | .none => []
  | .seg g => [segPrefix g]
  | .a32 => [0x67#8]
  | .segA32 g => [segPrefix g, 0x67#8]
  | .a32Seg g => [0x67#8, segPrefix g]

/-- The REX byte `0100WRXB` (R62). -/
def encodeRex (x : Rex) : Byte :=
  4#4 ++ BitVec.ofBool x.w ++ BitVec.ofBool x.r ++ BitVec.ofBool x.x ++ BitVec.ofBool x.b

/-- An optional REX byte. -/
def encodeRex? : Option Rex → List Byte
  | none => []
  | some x => [encodeRex x]

/-- A ModRM byte, and a SIB byte, have the same three fields of 2, 3 and 3 bits (R64, R65). -/
def packFields (hi : BitVec 2) (mid lo : BitVec 3) : Byte := hi ++ mid ++ lo

/-- The `mod` field of a displacement (R64). -/
def dispMod : Disp → BitVec 2
  | .none => 0#2
  | .d8 _ => 1#2
  | .d32 _ => 2#2

/-- The bytes of a displacement (R66). -/
def dispBytes : Disp → List Byte
  | .none => []
  | .d8 v => leBytes 1 v
  | .d32 v => leBytes 4 v

/-- The ModRM byte with register field `reg`, and the SIB and displacement bytes after it (R64, R65). -/
def encodeMem (reg : BitVec 3) : MemOperand → List Byte
  | .base rm d => packFields (dispMod d) reg rm :: dispBytes d
  | .ripRel d => packFields 0#2 reg 5#3 :: leBytes 4 d
  | .sib sc i b d => packFields (dispMod d) reg 4#3 :: packFields sc i b :: dispBytes d
  | .sibNoBase sc i d => packFields 0#2 reg 4#3 :: packFields sc i 5#3 :: leBytes 4 d

/-- The ModRM byte and what follows it (R64). -/
def encodeRegMem (reg : BitVec 3) : RegMem → List Byte
  | .reg rm => [packFields 3#2 reg rm]
  | .mem m => encodeMem reg m

/-- The bytes of a memory offset (R67). -/
def encodeMoffs : Moffs → List Byte
  | .m64 v => leBytes 8 v
  | .m32 v => leBytes 4 v

/-- An opcode byte `base + rd` (R63). -/
def opcodeRd (base : BitVec 5) (rd : BitVec 3) : Byte := base ++ rd

/-- The encoder: the bytes of an instruction in the order of R60. -/
def encode : Instr → List Byte
  | .lea a rex reg m => (if a then [0x67#8] else []) ++ encodeRex rex :: 0x8D#8 :: encodeMem reg m
  | .movImm64 rex rd v => encodeRex rex :: opcodeRd 0x17#5 rd :: leBytes 8 v
  | .movLoadMoffs p rex off => encodeLegacy p ++ encodeRex rex :: 0xA1#8 :: encodeMoffs off
  | .movStoreMoffs p rex off => encodeLegacy p ++ encodeRex rex :: 0xA3#8 :: encodeMoffs off
  | .movLoad p rex reg rm => encodeLegacy p ++ encodeRex rex :: 0x8B#8 :: encodeRegMem reg rm
  | .movStore p rex reg rm => encodeLegacy p ++ encodeRex rex :: 0x89#8 :: encodeRegMem reg rm
  | .push rex rd => encodeRex? rex ++ [opcodeRd 0x0A#5 rd]
  | .pop rex rd => encodeRex? rex ++ [opcodeRd 0x0B#5 rd]
  | .jmpRel8 rex v => encodeRex? rex ++ 0xEB#8 :: leBytes 1 v

/-- The length L of an instruction in bytes (R60; 40_address_calculation.md R85). -/
def instrLength (i : Instr) : Nat := (encode i).length

/-! ### A row of the opcode table -/

/-- The longest instruction of the subset (R60). -/
def maxLength : Nat := 11

/-- The opcode byte belongs to one of the six rows whose REX entry is "required, W=1" (R69, R70). -/
def needsRexW (op : Byte) : Bool :=
  match opcode? op with
  | some .lea => true
  | some (.movImm64 _) => true
  | some .movLoadMoffs => true
  | some .movStoreMoffs => true
  | some .movLoad => true
  | some .movStore => true
  | some (.push _) => false
  | some (.pop _) => false
  | some .jmpRel8 => false
  | none => false

/-- The bytes of the instruction whose bits are `w` as spec/opcode_table.json numbers them. The table numbers from
the OPCODE byte ("match_applies_to": the first byte after the legacy prefixes and the REX prefix), so the REX.W
prefix that a row's format requires stands before it as `48H` (entry 13). Bits above `nbits` are 0. -/
def tableBytes (nbits w : Nat) : List Byte :=
  let byteAt (k : Nat) : Byte := BitVec.ofNat 8 ((w % 2 ^ nbits) >>> (8 * k))
  let bytes := (List.range maxLength).map byteAt
  (if needsRexW (byteAt 0) then 0x48#8 :: bytes else bytes).take maxLength

/-- The instruction the decoder reads from a word of the opcode table. -/
def decodeTableWord (nbits w : Nat) : Option Instr :=
  match decode (tableBytes nbits w) with
  | .ok i _ => some i
  | .refuse _ => none
  | .more => none

end Sys2Proof
end

