-- ==== Sys2Proof/Config.lean ====
section
/-! DEFINITION. What an implementation or a launch fixes: the constants of 00_scope.md R7, the parameters of
00_scope.md section 4, and the two parameters that are functions, which stay opaque (92_eei_decisions.md D2, D16). -/

namespace Sys2Proof

/-- A run of consecutive linear addresses, `base` to `base + size - 1`. -/
structure Region where
  base : Nat
  size : Nat
  deriving DecidableEq, Repr

/-- The parameters of a run (00_scope.md R4 to R6 and the table under section 4). They stand in the state as plain
data that no step writes, so a statement about every state speaks of every value of them. -/
structure Params where
  /-- `INTEL64`: the processor supports Intel 64 architecture (R4). -/
  intel64 : Bool
  /-- `PA_BITS`: the width of a physical address (R5); no step reads it (R33). -/
  paBits : Nat
  /-- `LA_BITS`: the implemented linear-address bits in 64-bit mode (R6). -/
  laBits : Nat
  /-- `LaunchMem`: the linear addresses the program may touch (20_memory.md R52). -/
  launchMem : List Region
  /-- `CODE_BASE`: the first byte of the program. -/
  codeBase : Word
  /-- `CODE_END`: the first byte after the program; the run ends there (42_named_instructions.md R109). -/
  codeEnd : Word
  deriving DecidableEq, Repr

/-- The bounds of R5 and R6: `1 <= LA_BITS <= 64`, and `PA_BITS <= 36` without Intel 64. -/
abbrev Params.BitsAdmitted (p : Params) : Prop :=
  1 ≤ p.laBits ∧ p.laBits ≤ 64 ∧ (p.intel64 = false → p.paBits ≤ 36)

/-- The constants the document fixes (00_scope.md R7). -/
def Config.maxSegments : Nat := 16383
/-- The largest segment outside the real-address-mode model, in bytes (R7, R28). -/
def Config.maxSegmentBytes : Nat := 2 ^ 32
/-- The largest segment of the real-address-mode model: 64 KBytes (R7, R30). -/
def Config.maxRealSegmentBytes : Nat := 2 ^ 16
/-- The extent of the linear address space outside 64-bit mode (R7, R26). -/
def Config.linearSpaceBytes : Nat := 2 ^ 32
/-- The extent of the linear address space in real-address mode (R7, R30, R45). -/
def Config.realLinearSpaceBytes : Nat := 2 ^ 20
/-- A PSE page: 4 MBytes (R7, R34). -/
def Config.psePageBytes : Nat := 2 ^ 22

/-- `Translate`, the paging function from linear to physical addresses (20_memory.md R32): partial, and OPEN
(D2). It has no body: nothing can be proved of it, and no step evaluates it (R33). -/
opaque Config.translate : Nat → Option Nat

/-- `SegBaseLegacy`, the base of the segment a selector names outside 64-bit mode (20_memory.md R29): OPEN (D16).
It has no body, and no step evaluates it. -/
opaque Config.segBaseLegacy : BitVec 16 → Nat

end Sys2Proof
end

