-- ==== Sys2Proof/Machine/State.lean ====
section
/-! DEFINITION. The state as plain data: every component of 10_state.md section 1, and the parameters of a run
(00_scope.md section 4) as one record that no step writes (entry 1). The faults, the refusals, and the reset state. -/

namespace Sys2Proof.Machine

/-- The six operating modes (10_state.md R9). -/
inductive Mode where
  | realAddress
  | protectedMode
  | virtual8086
  | smm
  | compatibility
  | mode64
  deriving DecidableEq, Repr

/-- `cs_default`, the code segment's default address and operand size (10_state.md R17). -/
inductive DefaultSize where
  | s16
  | s32
  deriving DecidableEq, Repr

/-- A segment register: a 16-bit selector and a segment base (10_state.md R16). -/
structure SegReg where
  sel : BitVec 16
  base : Word
  deriving DecidableEq, Repr

/-- The two exceptions the document names (60_exceptions.md R110): #GP, the general-protection exception, and #SS,
the stack fault. -/
inductive Exc where
  | gp
  | ss
  deriving DecidableEq, Repr

/-- How the run ended badly, if it did (10_state.md R20). A raised exception carries its name and the first
non-canonical byte address, an aid to the reader of a trace that no rule reads (60_exceptions.md R113, entry 24). -/
inductive FaultStatus where
  | none
  | raised (x : Exc) (trace : Word)
  | refused
  | stuck
  deriving DecidableEq, Repr

/-- Memory by linear address: the bytes of `LaunchMem` as (address, byte) cells. In its one form (`Memory.wf`) the
addresses rise strictly and no cell holds what an unlisted address reads as (entry 7). -/
structure Memory where
  cells : List Host.Cell
  deriving DecidableEq, Repr

/-- What a byte of `LaunchMem` that no cell lists holds: 00H. The spec gives no contents (10_state.md R22).
DESIGN CHOICE, unsafe (entry 7). -/
def Memory.unlisted : Byte := 0#8

/-- The one form of memory: strictly rising 64-bit addresses, no cell equal to what an unlisted address reads as. -/
abbrev Memory.wf (m : Memory) : Prop :=
  m.cells.Pairwise (fun c d => c.1 < d.1) ∧ ∀ c ∈ m.cells, c.2 ≠ Memory.unlisted ∧ c.1 < addressSpace

/-- The machine's state (10_state.md section 1). -/
structure State where
  /-- The parameters of the run; no step writes them (entry 1). -/
  params : Params
  /-- The operating mode (R9). -/
  mode : Mode
  /-- The sixteen general registers (R12). -/
  regs : Vector Word 16
  /-- The instruction pointer RIP (R14). -/
  pc : Word
  cs : SegReg
  ds : SegReg
  es : SegReg
  ss : SegReg
  fs : SegReg
  gs : SegReg
  /-- `cs_default` (R17). -/
  csDefault : DefaultSize
  /-- Paging enabled (R18). -/
  paging : Bool
  /-- Memory by linear address (R19). -/
  mem : Memory
  /-- How the run ended badly, if it did (R20). -/
  fault : FaultStatus
  deriving DecidableEq, Repr

/-- Why a step stops without a next state. -/
inductive Fault where
  /-- The run is stuck: an access or a fetch touches this canonical address, which is outside `LaunchMem`
  (20_memory.md R52). Raised by the fetch and by every data reference. Safe. -/
  | stuck (a : Word)
  /-- There is no step: `fault` is not `none` (42_named_instructions.md R99). Raised by `step` alone. Safe. -/
  | ended (f : FaultStatus)
  /-- There is no step: the run is final, `pc = CODE_END` (R99, R109). Raised by `step` alone. Safe. -/
  | final
  deriving DecidableEq, Repr

/-- Why the model gives no meaning. -/
inductive Refusal where
  /-- The instruction has no meaning yet. Raised by no arm of `exec`. Safe. -/
  | notModelled (mnemonic : String)
  /-- The bytes at `pc` are no admitted instruction (30_encoding.md R72). Raised by the fetch. Safe. -/
  | undecodable (r : Reject)
  /-- `refuse(wrap)`: an access would pass `FFFF_FFFF_FFFF_FFFFH` (20_memory.md R51). Raised by the fetch and by
  every data reference. Safe. -/
  | wrap
  /-- `refuse(store_to_code)`: a store touches the program's bytes (20_memory.md R58). Raised by the stores. Safe. -/
  | storeToCode
  /-- `refuse(fetch_outside_code)`: `pc` is canonical and outside the program (42_named_instructions.md R99). Raised
  by `step`. Safe. -/
  | fetchOutsideCode
  /-- No instruction executes outside 64-bit mode, nor without Intel 64 (00_scope.md R3, R4; 70_reset_and_hazards.md
  R123). Raised by `step` and by every meaning (entry 11). Safe. -/
  | modeNotAdmitted
  /-- The decoder asked for more than the longest instruction has: reached by no bytes (30_encoding.md R60; entry
  15). Safe. -/
  | instructionTooLong
  deriving DecidableEq, Repr

/-- What a meaning or a step answers. -/
abbrev Result := Host.Outcome State Fault Refusal

/-- The parameters at reset (entries 2 and 6): Intel 64, the document's 48 linear-address bits, every canonical
address of them in `LaunchMem`, and the empty program at 1000H. -/
def resetParams : Params where
  intel64 := true
  paBits := 48
  laBits := 48
  launchMem := [⟨0, 2 ^ 47⟩, ⟨2 ^ 64 - 2 ^ 47, 2 ^ 47⟩]
  codeBase := 0x1000#64
  codeEnd := 0x1000#64

/-- A segment register at reset (entry 4). -/
def resetSeg : SegReg := ⟨0#16, 0#64⟩

/-- The state after reset. The spec gives no reset state (10_state.md R22; 70_reset_and_hazards.md R122): this is the
launch state of the empty program, which meets the launch premises of R123. Its values are entries 2 to 7. -/
def State.reset : State where
  params := resetParams
  mode := .mode64
  regs := Vector.replicate 16 0#64
  pc := 0x1000#64
  cs := resetSeg
  ds := resetSeg
  es := resetSeg
  ss := resetSeg
  fs := resetSeg
  gs := resetSeg
  csDefault := .s32
  paging := true
  mem := ⟨[]⟩
  fault := .none

end Sys2Proof.Machine
end

