-- ==== Sys2Proof/Machine/Ops.lean ====
section
/-! DEFINITION. The named operations over registers, the instruction pointer, memory and the checks of a reference,
and the taking of an exception. Every meaning is built from these. -/

namespace Sys2Proof.Machine

/-! ### General registers (10_state.md R12) -/

/-- `x[r]`. -/
def State.reg (s : State) (r : Reg) : Word := s.regs[r.toNat]'(r.isLt)

/-- `x[r] <- v`. -/
def State.setReg (s : State) (r : Reg) (v : Word) : State := { s with regs := s.regs.set r.toNat v r.isLt }

/-- The 32-bit view of a general register: EAX, ECX, … of registers 0 to 7 (R12). -/
def State.reg32 (s : State) (r : Reg) : BitVec 32 := (s.reg r).setWidth 32

/-- The four-bit number of a register: a REX bit, then the three-bit field (30_encoding.md R62). -/
def regNum (hi : Bool) (lo : BitVec 3) : Reg := BitVec.ofBool hi ++ lo

/-- The REX bits of an instruction that may carry no REX prefix: all 0 without one (30_encoding.md R62). -/
def rexB (rex : Option Rex) : Bool :=
  match rex with
  | some x => x.b
  | none => false

/-! ### The instruction pointer (10_state.md R14, R15; 40_address_calculation.md R83 to R85) -/

/-- A write of the instruction pointer at one of three sizes. -/
inductive IpValue where
  | ip16 (v : BitVec 16)
  | ip32 (v : BitVec 32)
  | ip64 (v : BitVec 64)
  deriving DecidableEq, Repr

/-- `IPWrite(size, v)`, Table 3-1: 16 bits leave bits 63:16, 32 bits are zero-extended, 64 bits are RIP (R83). -/
def State.ipWrite (s : State) (v : IpValue) : State :=
  match v with
  | .ip16 v => { s with pc := s.pc.extractLsb' 16 48 ++ v }
  | .ip32 v => { s with pc := v.setWidth 64 }
  | .ip64 v => { s with pc := v }

/-- EIP is `pc[31:0]` (R15). -/
def State.eip (s : State) : BitVec 32 := s.pc.extractLsb' 0 32

/-- IP is `pc[15:0]` (R15). -/
def State.ip (s : State) : BitVec 16 := s.pc.extractLsb' 0 16

/-- `next = (pc + L) mod 2^64`, the address of the following instruction (R85). -/
def State.nextPc (s : State) (i : Instr) : Word := s.pc + BitVec.ofNat 64 (instrLength i)

/-- Write a register and advance: how an instruction with a register destination ends
(40_address_calculation.md R85). -/
def State.retire (s : State) (d : Reg) (v next : Word) : Result := .next ((s.setReg d v).ipWrite (.ip64 next))

/-! ### Memory by linear address (10_state.md R19; 20_memory.md R47) -/

/-- The byte the cells list for an address, or what an unlisted address reads as. -/
def lookupCell (a : Nat) : List Host.Cell → Byte
  | [] => Memory.unlisted
  | c :: cs => if c.1 = a then c.2 else lookupCell a cs

/-- Insert a cell where its address belongs. -/
def insertCell (c : Host.Cell) : List Host.Cell → List Host.Cell
  | [] => [c]
  | d :: ds => if c.1 < d.1 then c :: d :: ds else d :: insertCell c ds

/-- One byte of memory. -/
def Memory.readByte (m : Memory) (a : Nat) : Byte := lookupCell a m.cells

/-- Write one byte, keeping the one form of memory: the old cell goes, and a cell comes only for a byte that differs
from what an unlisted address reads as. -/
def Memory.writeByte (m : Memory) (a : Nat) (v : Byte) : Memory :=
  let others := m.cells.filter fun c => c.1 != a
  ⟨if v = Memory.unlisted then others else insertCell (a, v) others⟩

/-- `MemRead(a, n)`: the bytes at `a .. a+n-1` as one value, the byte at `a` in bits 7:0 (R47). -/
def Memory.read (m : Memory) (a : Nat) : (n : Nat) → BitVec (8 * n)
  | 0 => 0#0
  | n + 1 => m.read (a + 1) n ++ m.readByte a

/-- `MemWrite(a, n, v)`: bits 7:0 at `a`, and so on upwards (R47). -/
def Memory.write (m : Memory) (a : Nat) : (n : Nat) → BitVec (8 * n) → Memory
  | 0, _ => m
  | n + 1, v => (m.writeByte a (v.extractLsb' 0 8)).write (a + 1) n (v.extractLsb' 8 (8 * n))

/-- `MemRead(a, 8)`, the load of every form of the subset (20_memory.md R49). -/
def Memory.readWord (m : Memory) (a : Nat) : Word := m.read a 8

/-- `MemWrite(a, 8, v)`, the store of every form of the subset (20_memory.md R49). -/
def Memory.writeWord (m : Memory) (a : Nat) (v : Word) : Memory := m.write a 8 v

/-- Write a list of bytes from an address up: how a program is loaded. -/
def Memory.load (m : Memory) (a : Nat) : List Byte → Memory
  | [] => m
  | b :: bs => (m.writeByte a b).load (a + 1) bs

/-- `s` with another memory. -/
def State.setMem (s : State) (m : Memory) : State := { s with mem := m }

/-- The address is one of `LaunchMem` (20_memory.md R52). -/
def inLaunch (p : Params) (a : Nat) : Bool := p.launchMem.any fun r => r.base ≤ a && a < r.base + r.size

/-- The byte the program sees at a linear address: `mem` is defined exactly on `LaunchMem` (10_state.md R19). -/
def State.byteAt (s : State) (a : Nat) : Option Byte :=
  if inLaunch s.params a then some (s.mem.readByte a) else none

/-- The address is one of the program's, `CODE_BASE .. CODE_END-1` (20_memory.md R58). -/
def inCode (p : Params) (a : Nat) : Bool := p.codeBase.toNat ≤ a && a < p.codeEnd.toNat

/-! ### Canonical form (41_canonical_addressing.md R87) -/

/-- `Canonical(a)` for `laBits` implemented bits: bits 63 down to the most-significant implemented one are all zeros
or all ones. -/
def canonical (laBits : Nat) (a : Word) : Bool := a >>> (laBits - 1) == 0#64 || ~~~a >>> (laBits - 1) == 0#64

/-- The same of an address held as a number. -/
def canonicalAt (p : Params) (a : Nat) : Bool := canonical p.laBits (BitVec.ofNat 64 a)

/-! ### Admitting a reference (20_memory.md R51, R52; 41_canonical_addressing.md R96, R97) -/

/-- What the checks of a reference answer. -/
inductive Admit where
  /-- Every byte may be accessed. -/
  | ok
  /-- The exception of the reference, with the first non-canonical byte address. -/
  | raise (x : Exc) (a : Word)
  | refuse (r : Refusal)
  | stuck (a : Word)
  deriving DecidableEq, Repr

/-- The checks of an `n`-byte access at `a` whose canonical fault is `x`, in the order of R96: wrap, canonical form of
every byte, then `LaunchMem`. -/
def checkBytes (p : Params) (x : Exc) (a n : Nat) : Admit :=
  if addressSpace < a + n then .refuse .wrap
  else
    match (List.range n).find? fun k => !canonicalAt p (a + k) with
    | some k => .raise x (BitVec.ofNat 64 (a + k))
    | none =>
      match (List.range n).find? fun k => !inLaunch p (a + k) with
      | some k => .stuck (BitVec.ofNat 64 (a + k))
      | none => .ok

/-- A store of `n` bytes at `a` touches the program's bytes (20_memory.md R58). -/
def touchesCode (p : Params) (a n : Nat) : Bool := (List.range n).any fun k => inCode p (a + k)

/-! ### Taking an exception, and the ends of a run (60_exceptions.md R113, R114; 42_named_instructions.md R99) -/

/-- `raise #GP` or `raise #SS`: `fault` is set to the exception's name and nothing else changes: no register, no byte
of memory and not `pc` (R114). There is no return from it (R117). -/
def State.raise (s : State) (x : Exc) (trace : Word) : State := { s with fault := .raised x trace }

/-- Go on with `k` if the access is admitted; otherwise take the exception, refuse or be stuck, with no other change
(R99, R114). -/
def State.admitted (s : State) (c : Admit) (k : Result) : Result :=
  match c with
  | .ok => k
  | .raise x a => .next (s.raise x a)
  | .refuse r => .refused r
  | .stuck a => .fault (.stuck a)

/-- Only 64-bit mode of a processor with Intel 64 executes (00_scope.md R3, R4; 70_reset_and_hazards.md R123). -/
def State.executes (s : State) : Bool := s.mode == .mode64 && s.params.intel64

/-- A meaning in 64-bit mode; in any other mode no instruction executes (entry 11). -/
def State.inMode64 (s : State) (k : Result) : Result := if s.executes then k else .refused .modeNotAdmitted

/-- The state a run is left in by a step's answer, with `fault` as R99 and R20 set it: a refusal and a stuck access
record themselves and change nothing else; where there is no step, nothing changes (entry 9). -/
def State.settle (s : State) (r : Result) : State :=
  match r with
  | .next t => t
  | .fault (.stuck _) => { s with fault := .stuck }
  | .fault (.ended _) => s
  | .fault .final => s
  | .refused _ => { s with fault := .refused }

end Sys2Proof.Machine
end

