-- ==== Sys2Proof/Machine/Operands.lean ====
section
/-! DEFINITION. The memory reference and the operations on it: effective address, segment base, linear address,
effective segment, fault class and `Ref` (40_address_calculation.md R73 to R81; 41_canonical_addressing.md R89 to
R96), and how an instruction's bytes fill it (30_encoding.md R64 to R68). -/

namespace Sys2Proof.Machine

/-! ### The reference record (R73) -/

/-- The address size (R73). In 64-bit mode it is 64, or 32 with `67H` (30_encoding.md R68). -/
inductive ASize where
  | a16
  | a32
  | a64
  deriving DecidableEq, Repr

/-- The width in bits. -/
def ASize.bits : ASize → Nat
  | .a16 => 16
  | .a32 => 32
  | .a64 => 64

/-- The base of a reference. -/
inductive Base where
  | none
  | reg (r : Reg)
  /-- The address of the following instruction: RIP-relative (K15). -/
  | next
  deriving DecidableEq, Repr

/-- The scale factor of the index: 1, 2, 4 or 8. -/
inductive Scale where
  | x1
  | x2
  | x4
  | x8
  deriving DecidableEq, Repr

/-- The factor as a 64-bit number. -/
def Scale.factor : Scale → Word
  | .x1 => 1#64
  | .x2 => 2#64
  | .x4 => 4#64
  | .x8 => 8#64

/-- A memory reference of an instruction (R73). -/
structure Ref where
  asz : ASize
  base : Base
  index : Option Reg
  scale : Scale
  disp : Word
  ovr : Option Seg
  impliedStack : Bool
  deriving DecidableEq, Repr

/-! ### From the encoding to the reference (30_encoding.md R64 to R68) -/

/-- The address size in 64-bit mode (R68; 40_address_calculation.md R74). -/
def asize64 (a32 : Bool) : ASize := if a32 then .a32 else .a64

/-- A displacement's value: sign-extended to 64 bits (R66; 40_address_calculation.md R76). -/
def dispValue : Disp → Word
  | .none => 0#64
  | .d8 v => v.signExtend 64
  | .d32 v => v.signExtend 64

/-- The scale factor `2^scale` (R65). -/
def scaleOf (sc : BitVec 2) : Scale :=
  if sc = 0#2 then .x1 else if sc = 1#2 then .x2 else if sc = 2#2 then .x4 else .x8

/-- The index register `X ++ index`; 0100 is no index (R65). -/
def indexReg (x : Bool) (index : BitVec 3) : Option Reg :=
  if regNum x index = Reg.rsp then none else some (regNum x index)

/-- The scale of a reference: 1 when there is no index (40_address_calculation.md R73). -/
def indexScale (x : Bool) (index : BitVec 3) (sc : BitVec 2) : Scale :=
  if (indexReg x index).isSome then scaleOf sc else .x1

/-- The reference of a ModRM memory operand (R64, R65). -/
def memRef (rex : Rex) (asz : ASize) (ovr : Option Seg) : MemOperand → Ref
  | .base rm d =>
    { asz, base := .reg (regNum rex.b rm), index := none, scale := .x1, disp := dispValue d, ovr,
      impliedStack := false }
  | .ripRel d =>
    { asz, base := .next, index := none, scale := .x1, disp := d.signExtend 64, ovr, impliedStack := false }
  | .sib sc i b d =>
    { asz, base := .reg (regNum rex.b b), index := indexReg rex.x i, scale := indexScale rex.x i sc,
      disp := dispValue d, ovr, impliedStack := false }
  | .sibNoBase sc i d =>
    { asz, base := .none, index := indexReg rex.x i, scale := indexScale rex.x i sc,
      disp := d.signExtend 64, ovr, impliedStack := false }

/-- A memory offset's value: unsigned, used as it stands (R67). -/
def moffsValue : Moffs → Word
  | .m64 v => v
  | .m32 v => v.setWidth 64

/-- The reference of a MOV moffs form (42_named_instructions.md R102). -/
def moffsRef (p : Legacy) (off : Moffs) : Ref :=
  { asz := asize64 p.hasA32, base := .none, index := none, scale := .x1, disp := moffsValue off, ovr := p.ovr,
    impliedStack := false }

/-- `StackRefInstr`, the "PUSH/POP-related instructions": in the subset exactly PUSH r64 and POP r64
(41_canonical_addressing.md R91; entry 25). -/
def stackRefInstr : Instr → Bool
  | .lea _ _ _ _ => false
  | .movImm64 _ _ _ => false
  | .movLoadMoffs _ _ _ => false
  | .movStoreMoffs _ _ _ => false
  | .movLoad _ _ _ _ => false
  | .movStore _ _ _ _ => false
  | .push _ _ => true
  | .pop _ _ => true
  | .jmpRel8 _ _ => false

/-- The stack access of a PUSH/POP-related instruction at address `a` (42_named_instructions.md R106, R107). -/
def stackRef (a : Word) : Ref :=
  { asz := .a64, base := .none, index := none, scale := .x1, disp := a, ovr := none, impliedStack := true }

/-! ### Effective address (R77, R78) -/

/-- The value of the base, `next` being the address of the following instruction. -/
def baseValue (s : State) (next : Word) : Base → Word
  | .none => 0#64
  | .reg r => s.reg r
  | .next => next

/-- The value of the index. -/
def indexValue (s : State) : Option Reg → Word
  | none => 0#64
  | some r => s.reg r

/-- `EA(ref)`: base, index times scale, and displacement added modulo `2^64`, then truncated to the address size. -/
def ea (s : State) (next : Word) (ref : Ref) : BitVec ref.asz.bits :=
  (baseValue s next ref.base + indexValue s ref.index * ref.scale.factor + ref.disp).setWidth ref.asz.bits

/-- `EA64(ref)`: the effective address zero-extended to 64 bits (R78). -/
def ea64 (s : State) (next : Word) (ref : Ref) : Word := (ea s next ref).setWidth 64

/-! ### Linear address in 64-bit mode (R79, R80) -/

/-- `Base64(seg)`: CS, DS, ES and SS are treated as zero, FS and GS have their 64-bit bases. -/
def base64 (s : State) : Seg → Word
  | .cs => 0#64
  | .ds => 0#64
  | .es => 0#64
  | .ss => 0#64
  | .fs => s.fs.base
  | .gs => s.gs.base

/-- `LA(seg, ref) = (Base64(seg) + EA64(ref)) mod 2^64`. -/
def linear (s : State) (next : Word) (seg : Seg) (ref : Ref) : Word := base64 s seg + ea64 s next ref

/-! ### Which segment, which exception (41_canonical_addressing.md R90 to R95) -/

/-- `StackBase(ref)`: the base register is RSP or RBP (R91). -/
def stackBase (ref : Ref) : Bool := ref.base == .reg Reg.rsp || ref.base == .reg Reg.rbp

/-- `EffSeg(ref)`, the segment a reference uses in 64-bit mode (R93). -/
def effSeg (ref : Ref) : Seg :=
  if ref.impliedStack then .ss
  else if ref.ovr = some .fs then .fs
  else if ref.ovr = some .gs then .gs
  else if stackBase ref then .ss
  else .ds

/-- `FaultClass(ref)` (R95). -/
def faultClass (ref : Ref) : Exc :=
  if ref.impliedStack then .ss
  else if ref.ovr = some .fs ∨ ref.ovr = some .gs then .gp
  else if stackBase ref then .ss
  else .gp

/-! ### `Ref`: form and check a reference (R96) -/

/-- The linear address of a reference, under the segment it uses. -/
def refAddr (s : State) (next : Word) (ref : Ref) : Word := linear s next (effSeg ref) ref

/-- The checks of an `n`-byte reference (R96). -/
def refCheck (s : State) (next : Word) (ref : Ref) (n : Nat) : Admit :=
  checkBytes s.params (faultClass ref) (refAddr s next ref).toNat n

/-- The bytes a data access of the subset moves (20_memory.md R49). -/
def accessBytes : Nat := 8

/-- Load 8 bytes through a reference and go on with the value (R104): `la = Ref(ref, 8)`, `MemRead(la, 8)`. -/
def loadRef (s : State) (next : Word) (ref : Ref) (k : Word → Result) : Result :=
  s.admitted (refCheck s next ref accessBytes) (k (s.mem.readWord (refAddr s next ref).toNat))

/-- Store 8 bytes through a reference and go on in the new state (R105): `la = Ref(ref, 8)`, then the store-to-code
check, then `MemWrite(la, 8, v)`. -/
def storeRef (s : State) (next : Word) (ref : Ref) (v : Word) (k : State → Result) : Result :=
  s.admitted (refCheck s next ref accessBytes)
    (if touchesCode s.params (refAddr s next ref).toNat accessBytes then .refused .storeToCode
     else k (s.setMem (s.mem.writeWord (refAddr s next ref).toNat v)))

end Sys2Proof.Machine
end

