-- ==== Sys2Proof/Machine/Jump.lean ====
section
/-! DEFINITION. The meaning of `JMP rel8` (42_named_instructions.md R108). -/

namespace Sys2Proof.Machine

/-- `JMP rel8` (R108): `pc <- (next + sext_64(rel8)) mod 2^64`, unchecked; the next fetch checks it. -/
def execJmpRel8 (rex : Option Rex) (rel : BitVec 8) (s : State) : Result :=
  s.inMode64 <| .next (s.ipWrite (.ip64 (s.nextPc (.jmpRel8 rex rel) + rel.signExtend 64)))

end Sys2Proof.Machine
end

