-- ==== Sys2Proof/Machine/Lea.lean ====
section
/-! DEFINITION. The meaning of `LEA r64, m` (42_named_instructions.md R100). -/

namespace Sys2Proof.Machine

/-- `LEA r64, m` (R100): `x[d] <- zext_64(EA(ref))`. No segment base, no canonical check, no reference. -/
def execLea (a32 : Bool) (rex : Rex) (reg : BitVec 3) (m : MemOperand) (s : State) : Result :=
  let next := s.nextPc (.lea a32 rex reg m)
  s.inMode64 <| s.retire (regNum rex.r reg) (ea64 s next (memRef rex (asize64 a32) none m)) next

end Sys2Proof.Machine
end

