-- ==== Sys2Proof/Machine/Mov.lean ====
section
/-! DEFINITION. The meanings of the five MOV forms (42_named_instructions.md R101 to R105). -/

namespace Sys2Proof.Machine

/-- `MOV r64, imm64` (R101): the immediate at its full 64 bits. -/
def execMovImm64 (rex : Rex) (rd : BitVec 3) (imm : BitVec 64) (s : State) : Result :=
  s.inMode64 <| s.retire (regNum rex.b rd) imm (s.nextPc (.movImm64 rex rd imm))

/-- `MOV RAX, moffs64` (R102). -/
def execMovLoadMoffs (p : Legacy) (rex : Rex) (off : Moffs) (s : State) : Result :=
  let next := s.nextPc (.movLoadMoffs p rex off)
  s.inMode64 <| loadRef s next (moffsRef p off) fun v => s.retire Reg.rax v next

/-- `MOV moffs64, RAX` (R103). -/
def execMovStoreMoffs (p : Legacy) (rex : Rex) (off : Moffs) (s : State) : Result :=
  let next := s.nextPc (.movStoreMoffs p rex off)
  s.inMode64 <| storeRef s next (moffsRef p off) (s.reg Reg.rax) fun t => .next (t.ipWrite (.ip64 next))

/-- `MOV r64, r/m64` (R104): load, or register move. -/
def execMovLoad (p : Legacy) (rex : Rex) (reg : BitVec 3) (rm : RegMem) (s : State) : Result :=
  let next := s.nextPc (.movLoad p rex reg rm)
  s.inMode64 <|
    match rm with
    | .reg src => s.retire (regNum rex.r reg) (s.reg (regNum rex.b src)) next
    | .mem m => loadRef s next (memRef rex (asize64 p.hasA32) p.ovr m) fun v => s.retire (regNum rex.r reg) v next

/-- `MOV r/m64, r64` (R105): store, or register move. -/
def execMovStore (p : Legacy) (rex : Rex) (reg : BitVec 3) (rm : RegMem) (s : State) : Result :=
  let next := s.nextPc (.movStore p rex reg rm)
  let v := s.reg (regNum rex.r reg)
  s.inMode64 <|
    match rm with
    | .reg dst => s.retire (regNum rex.b dst) v next
    | .mem m => storeRef s next (memRef rex (asize64 p.hasA32) p.ovr m) v fun t => .next (t.ipWrite (.ip64 next))

end Sys2Proof.Machine
end

