-- ==== Sys2Proof/Machine/Stack.lean ====
section
/-! DEFINITION. The meanings of PUSH and POP (42_named_instructions.md R106, R107). -/

namespace Sys2Proof.Machine

/-- `PUSH r64` (R106): the value before the decrement is stored at `RSP - 8`, then RSP takes that address. -/
def execPush (rex : Option Rex) (rd : BitVec 3) (s : State) : Result :=
  let next := s.nextPc (.push rex rd)
  let a := s.reg Reg.rsp - 8#64
  s.inMode64 <|
    storeRef s next (stackRef a) (s.reg (regNum (rexB rex) rd)) fun t =>
      .next ((t.setReg Reg.rsp a).ipWrite (.ip64 next))

/-- `POP r64` (R107): RSP is incremented first and the destination written second, so `POP RSP` leaves the value
read. -/
def execPop (rex : Option Rex) (rd : BitVec 3) (s : State) : Result :=
  let next := s.nextPc (.pop rex rd)
  let a := s.reg Reg.rsp
  s.inMode64 <|
    loadRef s next (stackRef a) fun v =>
      .next (((s.setReg Reg.rsp (a + 8#64)).setReg (regNum (rexB rex) rd) v).ipWrite (.ip64 next))

end Sys2Proof.Machine
end

