-- ==== Sys2Proof/Machine/Dispatch.lean ====
section
/-! DEFINITION. One arm per constructor of `Instr`, each one direct call of its meaning. -/

namespace Sys2Proof.Machine

def exec (i : Instr) (s : State) : Host.Outcome State Fault Refusal :=
  match i with
  | .lea a32 rex reg m => Sys2Proof.Machine.execLea a32 rex reg m s
  | .movImm64 rex rd imm => Sys2Proof.Machine.execMovImm64 rex rd imm s
  | .movLoadMoffs p rex off => Sys2Proof.Machine.execMovLoadMoffs p rex off s
  | .movStoreMoffs p rex off => Sys2Proof.Machine.execMovStoreMoffs p rex off s
  | .movLoad p rex reg rm => Sys2Proof.Machine.execMovLoad p rex reg rm s
  | .movStore p rex reg rm => Sys2Proof.Machine.execMovStore p rex reg rm s
  | .push rex rd => Sys2Proof.Machine.execPush rex rd s
  | .pop rex rd => Sys2Proof.Machine.execPop rex rd s
  | .jmpRel8 rex rel => Sys2Proof.Machine.execJmpRel8 rex rel s

end Sys2Proof.Machine
end

