-- ==== Sys2Proof/Machine/Fetch.lean ====
section
/-! DEFINITION. Fetching and decoding the instruction at `pc` (41_canonical_addressing.md R97), the tests a step makes
on `pc` before it (42_named_instructions.md R99), and placing an instruction where the step fetches it. -/

namespace Sys2Proof.Machine

/-- Fetch byte by byte in address order, asking for a byte only while the bytes before it decide nothing (R97), and
go on with the instruction. Each byte is a reference through CS, whose base is zero and whose canonical fault is #GP.
`got` holds the bytes fetched so far. The fuel is never spent (entry 15). -/
def fetchFrom (s : State) (k : Instr → Result) : (fuel : Nat) → (got : List Byte) → Result
  | 0, _ => .refused .instructionTooLong
  | fuel + 1, got =>
    match decode got with
    | .ok i _ => k i
    | .refuse r => .refused (.undecodable r)
    | .more =>
      s.admitted (checkBytes s.params .gp (s.pc.toNat + got.length) 1)
        (fetchFrom s k fuel (got ++ [s.mem.readByte (s.pc.toNat + got.length)]))

/-- Fetch and decode the instruction at `pc`, and go on with it. -/
def fetch (s : State) (k : Instr → Result) : Result := fetchFrom s k (maxLength + 1) []

/-- The tests of R99 on the state and on `pc`, in its order; `k` is the rest of the step. -/
def whenRunning (s : State) (k : Result) : Result :=
  if s.fault ≠ .none then .fault (.ended s.fault)
  else s.inMode64 <|
    if s.pc = s.params.codeEnd then .fault .final
    else if !canonical s.params.laBits s.pc then .next (s.raise .gp s.pc)
    else if !inCode s.params s.pc.toNat then .refused .fetchOutsideCode
    else k

/-- `s` with bytes placed at `pc`: they are in memory and in `LaunchMem`, and `pc` is inside the program. Nothing else
changes (entry 14). -/
def placeAtPc (s : State) (bytes : List Byte) : State :=
  let at0 := s.pc.toNat
  let n := min bytes.length (addressSpace - at0)
  let p := s.params
  let p := if (List.range n).all fun k => inLaunch p (at0 + k) then p
    else { p with launchMem := ⟨at0, n⟩ :: p.launchMem }
  let p := if inCode p at0 then p
    else { p with codeBase := s.pc, codeEnd := BitVec.ofNat 64 (min (at0 + n) (addressSpace - 1)) }
  { s with params := p, mem := s.mem.load at0 (bytes.take n) }

end Sys2Proof.Machine
end

