-- ==== Sys2Proof/Machine/Step.lean ====
section
/-! DEFINITION. The step (42_named_instructions.md R99). -/

namespace Sys2Proof.Machine

/-- One step: the tests on the state and on `pc`, the fetch, then the instruction's meaning (R99). -/
def step (s : State) : Host.Outcome State Fault Refusal :=
  whenRunning s <| fetch s fun i => exec i s

/-- The run's own transition, which records a refusal and a stuck access in `fault` as R99 does (entry 9). -/
def advance (s : State) : State := s.settle (step s)

/-- `s` with the instruction of an opcode-table word placed where `step` fetches its next instruction. -/
def State.withFetchWord (s : State) (nbits w : Nat) : State := placeAtPc s (tableBytes nbits w)

end Sys2Proof.Machine
end

