-- ==== Sys2Proof/Machine/Modes.lean ====
section
/-! DEFINITION. What the spec says of the operating modes, the memory models, the address and operand sizes and the
address spaces, inside and outside 64-bit mode (20_memory.md sections 1 to 7; 10_state.md R9 to R18;
40_address_calculation.md R82). No instruction executes outside 64-bit mode (00_scope.md R3), so no step calls these;
they state the spec's rules about the state's `mode`, `csDefault` and `paging` (entry 21). -/

namespace Sys2Proof.Machine

/-! ### Operating modes and memory models (R9, R10, R36 to R40) -/

/-- IA-32e mode is compatibility mode and 64-bit mode together (10_state.md R10). -/
def ia32e (m : Mode) : Bool := m == .compatibility || m == .mode64

/-- The modes that exist: without Intel 64 there is no IA-32e mode (00_scope.md R4). -/
def modeExists (p : Params) (m : Mode) : Bool := p.intel64 || !ia32e m

/-- The three memory models (R25). -/
inductive MemoryModel where
  | flat
  | segmented
  | realAddress
  deriving DecidableEq, Repr

/-- What a mode offers of a memory model, as the table of 20_memory.md section 5 has it. -/
inductive Offer where
  | yes
  | no
  /-- "similar to" the model, which is not equal to it (R38). -/
  | similar
  | notStated
  deriving DecidableEq, Repr

/-- Which mode offers which memory model (R36 to R40). Compatibility mode has protected mode's (R39). -/
def offers : Mode → MemoryModel → Offer
  | .protectedMode, .flat => .yes
  | .protectedMode, .segmented => .yes
  | .protectedMode, .realAddress => .yes
  | .virtual8086, .flat => .notStated
  | .virtual8086, .segmented => .notStated
  | .virtual8086, .realAddress => .yes
  | .realAddress, .flat => .no
  | .realAddress, .segmented => .no
  | .realAddress, .realAddress => .yes
  | .smm, .flat => .no
  | .smm, .segmented => .no
  | .smm, .realAddress => .similar
  | .compatibility, .flat => .yes
  | .compatibility, .segmented => .yes
  | .compatibility, .realAddress => .yes
  | .mode64, .flat => .yes
  | .mode64, .segmented => .no
  | .mode64, .realAddress => .no

/-- The largest segment of a model that has segments (R28, R30). -/
def maxSegmentBytes : MemoryModel → Option Nat
  | .flat => none
  | .segmented => some Config.maxSegmentBytes
  | .realAddress => some Config.maxRealSegmentBytes

/-- The offset lies below the largest size a segment of the model can have. The size of one particular segment is
recorded nowhere the spec describes (R28; N12), so this bound is the only one. -/
def offsetInSegment (m : MemoryModel) (off : Nat) : Bool :=
  match maxSegmentBytes m with
  | some n => off < n
  | none => true

/-! ### Address and operand sizes (R17, R41 to R45; 30_encoding.md R68, R69) -/

/-- `cs_default` as an address size (R17). -/
def DefaultSize.asize : DefaultSize → ASize
  | .s16 => .a16
  | .s32 => .a32

/-- An override selects exactly the other of 16 and 32 (R44, K9). -/
def otherSize : ASize → ASize
  | .a16 => .a32
  | .a32 => .a16
  | .a64 => .a32

/-- The default address size of a mode: the code segment's in protected and compatibility mode (R17, R44, R82), 16 in
real-address mode (R45), 64 in 64-bit mode (R74). The spec states none for the other two. -/
def defaultAddressSize (m : Mode) (d : DefaultSize) : Option ASize :=
  match m with
  | .protectedMode => some d.asize
  | .compatibility => some d.asize
  | .realAddress => some .a16
  | .mode64 => some .a64
  | .virtual8086 => none
  | .smm => none

/-- The address size of one instruction, `override` saying whether it carries the address-size override: the other
size outside 64-bit mode (R44, R45), 32 in it (30_encoding.md R68). -/
def addressSize (m : Mode) (d : DefaultSize) (override : Bool) : Option ASize :=
  (defaultAddressSize m d).map fun a => if override then otherSize a else a

/-- The operand size of one instruction: as the address size outside 64-bit mode, one default serving both (R17, R44,
R45); 64 in 64-bit mode on the admitted forms, which take no operand-size override (30_encoding.md R61, R69). -/
def operandSize (m : Mode) (d : DefaultSize) (override : Bool) : Option ASize :=
  if m = .mode64 then (if override then none else some .a64) else addressSize m d override

/-- The largest segment offset of an address size (R41; 90_conflicts.md C5). -/
def maxOffset (a : ASize) : Nat := 2 ^ a.bits - 1

/-! ### Logical addresses (R27, R42) -/

/-- A logical address, or far pointer: a 16-bit selector with a 32-bit or a 16-bit offset (R42). -/
inductive FarPointer where
  | far32 (sel : BitVec 16) (off : BitVec 32)
  | far16 (sel : BitVec 16) (off : BitVec 16)
  deriving DecidableEq, Repr

/-- The segment selector of a logical address (R27). -/
def FarPointer.selector : FarPointer → BitVec 16
  | .far32 sel _ => sel
  | .far16 sel _ => sel

/-- The offset of a logical address: the byte in the segment (R27). -/
def FarPointer.offset : FarPointer → Nat
  | .far32 _ off => off.toNat
  | .far16 _ off => off.toNat

/-- The bits of information a far pointer holds: 48 or 32 (R42). -/
def FarPointer.bits : FarPointer → Nat
  | .far32 _ _ => 48
  | .far16 _ _ => 32

/-! ### Address spaces (section 0 of 20_memory.md; R26, R30, R35, R38, R45, R53) -/

/-- The address spaces of the document, the rows of the table in 20_memory.md section 0. They are separate: an address
of one names no byte of another. -/
inductive AddressSpace where
  /-- Physical memory (R23, R24). -/
  | physical
  /-- The linear address space outside 64-bit mode (R26). -/
  | linear32
  /-- The linear address space of the real-address-mode model (R30, R45). -/
  | linearReal
  /-- The linear address space of 64-bit mode (R35). -/
  | linear64
  /-- A segment of the segmented model (R27). -/
  | segment
  /-- Virtual memory, which the paging mechanism alone reaches (R32). -/
  | virtual
  /-- SMRAM, the separate address space of system management mode (R38). No size, no base and no contents are given
  (N24), so the model gives it none: it is a space, and no component of the state (entry 32). -/
  | smram
  deriving DecidableEq, Repr

/-- The address space that the addresses of a mode lie in, after segmentation: in SMM the processor switches to SMRAM
(R38; 60_exceptions.md R119). Virtual-8086 mode has the real-address-mode model's (entry 21). -/
def Mode.space : Mode → AddressSpace
  | .realAddress => .linearReal
  | .protectedMode => .linear32
  | .virtual8086 => .linearReal
  | .smm => .smram
  | .compatibility => .linear32
  | .mode64 => .linear64

/-- The address is one of the space, where the document gives the space's extent (R53): `2^PA_BITS` physical addresses
(R24), `2^32` linear addresses outside 64-bit mode (R26), `2^20` of the real-address-mode model (R30, R45), the
canonical addresses in 64-bit mode (R35), at most `2^32` offsets in a segment (R28). None for virtual memory (R32) and
SMRAM (R38). -/
def AddressSpace.contains (p : Params) (a : Nat) : AddressSpace → Option Bool
  | .physical => some (a < 2 ^ p.paBits)
  | .linear32 => some (a < Config.linearSpaceBytes)
  | .linearReal => some (a < Config.realLinearSpaceBytes)
  | .linear64 => some (a < addressSpace && canonicalAt p a)
  | .segment => some (offsetInSegment .segmented a)
  | .virtual => none
  | .smram => none

/-- The address is one of the mode's address space. Not stated for SMM (R38). -/
def inLinearSpace (p : Params) (m : Mode) (a : Nat) : Option Bool := m.space.contains p a

/-! ### Linear addresses (R29, R30, R45, R82) -/

/-- Logical to linear outside 64-bit mode: segment base plus offset (R29, K7), `base` standing for `SegBaseLegacy`.
No meaning beyond the linear address space, nor at an offset no segment has: the document gives neither a wrap nor a
fault (N14). DESIGN CHOICE: an offset past the segment's own size, which nothing records, has the meaning of any other
(entry 31). -/
def legacyLinear (base : BitVec 16 → Nat) (fp : FarPointer) : Option Nat :=
  let a := base fp.selector + fp.offset
  if offsetInSegment .segmented fp.offset && a < Config.linearSpaceBytes then some a else none

/-- Logical to linear in the real-address-mode model: the segment of selector `s` starts at `16 * s` (R30, K8). A
reference above `000F_FFFFH` has no meaning: neither wrapped nor faulted (R45, U10). DESIGN CHOICE: nor has one whose
32-bit offset is `10000H` or more, since a segment has at most `2^16` bytes (R7, R30) and what an offset past a
segment's size does is not in the source (R28, N12, N14; entry 31). -/
def realLinear (fp : FarPointer) : Option Nat :=
  let a := 16 * fp.selector.toNat + fp.offset
  if offsetInSegment .realAddress fp.offset && a < Config.realLinearSpaceBytes then some a else none

/-- The linear address of a reference in compatibility mode: the effective address truncated to the address size and
zero-extended, then segmentation as in 32-bit protected mode (R39, R82), with no check of the segment's own size
(entry 31). -/
def compatLinear (base : BitVec 16 → Nat) (s : State) (next : Word) (sel : BitVec 16) (ref : Ref) : Option Nat :=
  let a := base sel + (ea64 s next ref).toNat
  if a < Config.linearSpaceBytes then some a else none

/-- The machine's own legacy translation, over the open `SegBaseLegacy` (R29, D16). -/
def State.legacyLinear (fp : FarPointer) : Option Nat := Sys2Proof.Machine.legacyLinear Config.segBaseLegacy fp

/-! ### Physical addresses (R23, R24, R31 to R35, R46) -/

/-- How linear addresses reach physical memory. -/
inductive Mapping where
  /-- Paging disabled: no translation (R31). -/
  | direct
  /-- Paging enabled without the Physical Address Extensions (R32, R34). -/
  | paging
  /-- The PAE paging mechanism (R34, R35, R46). -/
  | paePaging
  deriving DecidableEq, Repr

/-- The mapping in force in a mode, `pae` saying whether PAE is in use, which no component of the state holds
(10_state.md R18). In 64-bit mode paging is always on and is the PAE mechanism, whatever the two flags (R35). In SMM the
addresses are SMRAM's, for which the document gives no mapping (R38; entry 32). -/
def mapping (m : Mode) (paging pae : Bool) : Option Mapping :=
  match m with
  | .mode64 => some .paePaging
  | .smm => none
  | .realAddress | .protectedMode | .virtual8086 | .compatibility =>
    some (if !paging then .direct else if pae then .paePaging else .paging)

/-- Linear to physical under a mapping: directly with paging disabled, through `tr` with paging (R31, R32, R35). -/
def physical (tr : Nat → Option Nat) (k : Mapping) (a : Nat) : Option Nat :=
  match k with
  | .direct => some a
  | .paging => tr a
  | .paePaging => tr a

/-- The machine's own mapping of a linear address, over the open `Translate` (R32, D2); none in SMM, whose addresses
name no byte of the ordinary linear address space (R38). -/
def State.physical (s : State) (pae : Bool) (a : Nat) : Option Nat :=
  (mapping s.mode s.paging pae).bind fun k => Sys2Proof.Machine.physical Config.translate k a

/-- The physical address is one of the physical address space, `0 .. 2^PA_BITS - 1` (00_scope.md R5; R24). -/
def inPhysicalSpace (p : Params) (a : Nat) : Bool := a < 2 ^ p.paBits

/-- A physical address can be reached from linear addresses. Unpaged it is one of the mode's own linear addresses, at
most `000F_FFFFH` in real-address and virtual-8086 mode (R30, R31, R45; entry 21). Without PAE it fits in 32 bits
(R34). One above `FFFF_FFFFH` takes the PAE mechanism, in protected mode (R46) or in an IA-32e mode, and 64-bit mode
always has it (R35; entry 21). None is reached through the ordinary mapping in SMM (R38). -/
def physicalReachable (p : Params) (m : Mode) (paging pae : Bool) (a : Nat) : Bool :=
  modeExists p m && inPhysicalSpace p a &&
    match mapping m paging pae with
    | none => false
    | some .direct => inLinearSpace p m a == some true
    | some .paging => a < 2 ^ 32
    | some .paePaging => a < 2 ^ 32 || m == .protectedMode || ia32e m

/-- The premise of 20_memory.md R33 about `Translate`, which a run's claims carry (`State.Admitted`): on `LaunchMem`,
`tr` gives a physical address (R24), and two linear addresses never name one physical byte. -/
structure TranslatePremise (tr : Nat → Option Nat) (p : Params) : Prop where
  defined : ∀ a, inLaunch p a = true → ∃ b, tr a = some b ∧ inPhysicalSpace p b = true
  injective : ∀ a b, inLaunch p a = true → inLaunch p b = true → tr a = tr b → a = b

end Sys2Proof.Machine
end

