-- ==== Sys2Proof/Safety.lean ====
section
/-! DEFINITION. The terms claims use: launch states, the invariant of a run, how a run ends, what no step reads. -/

namespace Sys2Proof.Machine

/-- The premises of R123 that stay true during a run, `tr` standing for `Translate`: 64-bit mode with Intel 64 and
paging, `LA_BITS` in its bounds, every address of `LaunchMem` canonical, the program inside `LaunchMem`, `mem` in its
one form and defined on `LaunchMem` only, and `tr` defined and injective on `LaunchMem` (20_memory.md R33). One `tr`
for every state of a run says that it does not change. -/
structure State.Admitted (tr : Nat → Option Nat) (s : State) : Prop where
  mode64 : s.mode = .mode64
  intel64 : s.params.intel64 = true
  paging : s.paging = true
  bits : s.params.BitsAdmitted
  code_le : s.params.codeBase ≤ s.params.codeEnd
  launch_canonical : ∀ a, inLaunch s.params a = true → a < addressSpace ∧ canonicalAt s.params a = true
  code_in_launch : ∀ a, inCode s.params a = true → inLaunch s.params a = true
  mem_wf : s.mem.wf
  mem_in_launch : ∀ c ∈ s.mem.cells, inLaunch s.params c.1 = true
  translate : TranslatePremise tr s.params

/-- A launch state (70_reset_and_hazards.md R123): admitted, no fault, and `pc = CODE_BASE`. Of the machine itself `tr`
is `Config.translate`. -/
structure State.LaunchAdmitted (tr : Nat → Option Nat) (s : State) : Prop where
  admitted : s.Admitted tr
  noFault : s.fault = .none
  atBase : s.pc = s.params.codeBase

/-- The run is final (42_named_instructions.md R109). -/
abbrev State.Final (s : State) : Prop := s.fault = .none ∧ s.pc = s.params.codeEnd

/-- The state after `n` transitions of the run. -/
def State.after (s : State) : Nat → State
  | 0 => s
  | n + 1 => (advance s).after n

/-- The run ends well after `n` transitions (R109, R127). -/
abbrev State.EndsWell (s : State) (n : Nat) : Prop := (s.after n).Final

/-- A safe run: it never faults, is never refused and is never stuck. -/
def State.Safe (s : State) : Prop := ∀ n, (s.after n).fault = .none

/-- The state before its step passes the tests of R99: the instruction at `pc` is fetched. -/
structure State.Running (s : State) : Prop where
  noFault : s.fault = .none
  executes : s.executes = true
  notFinal : s.pc ≠ s.params.codeEnd
  canonicalPc : canonical s.params.laBits s.pc = true
  inProgram : inCode s.params s.pc.toNat = true

/-- An instruction byte at `pc + k` can be fetched: no wrap, canonical, and in `LaunchMem`
(41_canonical_addressing.md R97). -/
abbrev State.Fetchable (s : State) (k : Nat) : Prop :=
  s.pc.toNat + k < addressSpace ∧ canonicalAt s.params (s.pc.toNat + k) = true ∧
    inLaunch s.params (s.pc.toNat + k) = true

/-- The bytes `bs` stand at `pc` and can be fetched. -/
def State.Holds (s : State) (bs : List Byte) : Prop :=
  ∀ k, (h : k < bs.length) → s.Fetchable k ∧ s.mem.readByte (s.pc.toNat + k) = bs[k]

/-- An `n`-byte access at `a` passes every check of R96. -/
def State.Accessible (s : State) (a n : Nat) : Prop :=
  a + n ≤ addressSpace ∧
    ∀ k < n, canonicalAt s.params (a + k) = true ∧ inLaunch s.params (a + k) = true

/-! ### Encodings in numbers (30_encoding.md R62 to R67) -/

/-- The displacement field's value as the reference holds it: 0 without a field, else the field as a signed number
(R66). -/
def DispIs (d : Disp) (v : Word) : Prop :=
  match d with
  | .none => v = 0#64
  | .d8 x => v.toInt = x.toInt
  | .d32 x => v.toInt = x.toInt

/-- The base register of a reference has the number `B ++ field` (R64, R65). -/
def BaseIs (b : Bool) (field : BitVec 3) (ref : Ref) : Prop :=
  ∃ r : Reg, r.toNat = 8 * b.toNat + field.toNat ∧ ref.base = .reg r

/-- The index register of a reference has the number `X ++ index` and the factor `2^scale`; 4 is no index and has scale
1 (R65; 40_address_calculation.md R73). -/
def IndexIs (x : Bool) (index : BitVec 3) (scale : BitVec 2) (ref : Ref) : Prop :=
  if 8 * x.toNat + index.toNat = 4 then ref.index = none ∧ ref.scale = .x1
  else (∃ r : Reg, r.toNat = 8 * x.toNat + index.toNat ∧ ref.index = some r) ∧
    ref.scale.factor.toNat = 2 ^ scale.toNat

/-- No index register: index none, scale 1 (R64). -/
def NoIndex (ref : Ref) : Prop := ref.index = none ∧ ref.scale = .x1

/-! ### What an instruction refers to and writes -/

/-- The one data reference of an instruction, if it makes one (60_exceptions.md R115), `next` being the address of
the following instruction. -/
def dataRef (s : State) (i : Instr) : Option Ref :=
  match i with
  | .lea _ _ _ _ => none
  | .movImm64 _ _ _ => none
  | .movLoadMoffs p _ off => some (moffsRef p off)
  | .movStoreMoffs p _ off => some (moffsRef p off)
  | .movLoad p rex _ (.mem m) => some (memRef rex (asize64 p.hasA32) p.ovr m)
  | .movLoad _ _ _ (.reg _) => none
  | .movStore p rex _ (.mem m) => some (memRef rex (asize64 p.hasA32) p.ovr m)
  | .movStore _ _ _ (.reg _) => none
  | .push _ _ => some (stackRef (s.reg Reg.rsp - 8#64))
  | .pop _ _ => some (stackRef (s.reg Reg.rsp))
  | .jmpRel8 _ _ => none

/-- The instruction stores to memory (R103, R105, R106). -/
def isStore : Instr → Bool
  | .lea _ _ _ _ => false
  | .movImm64 _ _ _ => false
  | .movLoadMoffs _ _ _ => false
  | .movStoreMoffs _ _ _ => true
  | .movLoad _ _ _ _ => false
  | .movStore _ _ _ (.mem _) => true
  | .movStore _ _ _ (.reg _) => false
  | .push _ _ => true
  | .pop _ _ => false
  | .jmpRel8 _ _ => false

/-- `t` differs from `s` in the general registers, `pc` and memory at most: the mode, the parameters, the segment
registers, `csDefault`, `paging` and `fault` are as they were. -/
structure SameControl (s t : State) : Prop where
  params : t.params = s.params
  mode : t.mode = s.mode
  cs : t.cs = s.cs
  ds : t.ds = s.ds
  es : t.es = s.es
  ss : t.ss = s.ss
  fs : t.fs = s.fs
  gs : t.gs = s.gs
  csDefault : t.csDefault = s.csDefault
  paging : t.paging = s.paging
  fault : t.fault = s.fault

/-- From `s` to `t` register `d` takes `v` and `pc` takes `next`; every other register, every byte of memory and the
control state are as they were. -/
structure WritesReg (s t : State) (d : Reg) (v next : Word) : Prop where
  value : t.reg d = v
  others : ∀ r, r ≠ d → t.reg r = s.reg r
  pc : t.pc = next
  memory : ∀ a, t.byteAt a = s.byteAt a
  control : SameControl s t

/-- The eight bytes at `a` are `v`, bits 7:0 at `a` (20_memory.md R47). -/
def State.HasWord (s : State) (a : Nat) (v : Word) : Prop :=
  ∀ k < 8, s.byteAt (a + k) = some (v.extractLsb' (8 * k) 8)

/-- From `s` to `t` memory differs at most in the eight bytes at `a`, which take `v`. -/
structure StoresWord (s t : State) (a : Nat) (v : Word) : Prop where
  stored : t.HasWord a v
  elsewhere : ∀ b, b < a ∨ a + 8 ≤ b → t.byteAt b = s.byteAt b

/-- From `s` to `t` the eight bytes at `a` take `v` and `pc` takes `next`; every register, every other byte of memory
and the control state are as they were. -/
structure WritesMem (s t : State) (a : Nat) (v next : Word) : Prop where
  store : StoresWord s t a v
  regs : ∀ r, t.reg r = s.reg r
  pc : t.pc = next
  control : SameControl s t

/-- The registers an instruction may write (R100 to R108): its destination, and RSP for PUSH and POP. -/
def destRegs : Instr → List Reg
  | .lea _ rex reg _ => [regNum rex.r reg]
  | .movImm64 rex rd _ => [regNum rex.b rd]
  | .movLoadMoffs _ _ _ => [Reg.rax]
  | .movStoreMoffs _ _ _ => []
  | .movLoad _ rex reg _ => [regNum rex.r reg]
  | .movStore _ rex _ (.reg dst) => [regNum rex.b dst]
  | .movStore _ _ _ (.mem _) => []
  | .push _ _ => [Reg.rsp]
  | .pop rex rd => [Reg.rsp, regNum (rexB rex) rd]
  | .jmpRel8 _ _ => []

/-- What the spec says no step of 64-bit mode reads (10_state.md R16 to R18; 20_memory.md R33; 40 R79): the
selectors, the bases of CS, DS, ES and SS, `cs_default`, `paging` and `PA_BITS`. -/
structure Unread where
  cs : SegReg
  ds : SegReg
  es : SegReg
  ss : SegReg
  fsSel : BitVec 16
  gsSel : BitVec 16
  csDefault : DefaultSize
  paging : Bool
  paBits : Nat
  deriving DecidableEq, Repr

/-- `s` with those components replaced. -/
def State.withUnread (s : State) (u : Unread) : State :=
  { s with
    params := { s.params with paBits := u.paBits }
    cs := u.cs, ds := u.ds, es := u.es, ss := u.ss
    fs := { s.fs with sel := u.fsSel }, gs := { s.gs with sel := u.gsSel }
    csDefault := u.csDefault, paging := u.paging }

/-- Apply a change to the next state of an answer. -/
def mapNext (f : State → State) (r : Result) : Result :=
  match r with
  | .next t => .next (f t)
  | .fault e => .fault e
  | .refused e => .refused e

end Sys2Proof.Machine
end

