-- ==== Sys2Proof/Certificates/Slice0/Obligations.lean ====
section
/-! DEFINITION. The statements for the provers. Each docstring names the rules of spec/ it formalises; where it rests
on a choice of the model it says so and names the log entry. -/

open Sys2Proof Sys2Proof.Machine

/-! ### Encoding -/

/-- R60 to R70: decoding the bytes of any well-formed instruction gives that instruction and leaves the bytes after
it, with every operand at every value. -/
def Obligations.DecodeOfEncode : Prop :=
  ∀ (i : Instr) (rest : List Byte), i.WellFormed → decode (encode i ++ rest) = .ok i rest

/-- R60 to R70: bytes that decode are the encoding of the instruction they decode to, followed by the bytes left over,
and that instruction is well-formed. -/
def Obligations.EncodeOfDecode : Prop :=
  ∀ (bs rest : List Byte) (i : Instr), decode bs = .ok i rest → i.WellFormed ∧ bs = encode i ++ rest

/-- R97: the decoder asks for every byte of an instruction, one after another: no proper prefix of it decides. -/
def Obligations.ProperPrefixDecidesNothing : Prop :=
  ∀ (i : Instr) (n : Nat), i.WellFormed → n < instrLength i → decode ((encode i).take n) = .more

/-- R97: once the bytes decide a refusal, the bytes after them do not matter. -/
def Obligations.RefusalIsDecidedOnce : Prop :=
  ∀ (bs rest : List Byte) (r : Reject), decode bs = .refuse r → decode (bs ++ rest) = .refuse r

/-- R60, entry 15: the decoder never asks for a twelfth byte, so no step is refused for length. -/
def Obligations.DecoderAsksForElevenBytesAtMost : Prop :=
  (∀ bs : List Byte, decode bs = .more → bs.length < 11) ∧ ∀ s : State, step s ≠ .refused .instructionTooLong

/-- R60 to R67: eight worked encodings of 30_encoding.md section 9 and 95_test_vectors.md section 2.6. -/
def Obligations.WorkedEncodingsDecode : Prop :=
  decode [0x67#8, 0x48#8, 0x8D#8, 0x48#8, 0x20#8] =
      .ok (.lea true ⟨true, false, false, false⟩ 1#3 (.base 0#3 (.d8 0x20#8))) [] ∧
    decode [0x49#8, 0xBF#8, 1#8, 0#8, 0#8, 0#8, 0#8, 0#8, 0#8, 0#8] =
      .ok (.movImm64 ⟨true, false, false, true⟩ 7#3 1#64) [] ∧
    decode [0x65#8, 0x48#8, 0xA3#8, 0#8, 0x20#8, 0#8, 0#8, 0#8, 0#8, 0#8, 0#8] =
      .ok (.movStoreMoffs (.seg .gs) ⟨true, false, false, false⟩ (.m64 0x2000#64)) [] ∧
    decode [0x48#8, 0x8B#8, 0x15#8, 0xEC#8, 0x0F#8, 0#8, 0#8] =
      .ok (.movLoad .none ⟨true, false, false, false⟩ 2#3 (.mem (.ripRel 0xFEC#32))) [] ∧
    decode [0x4D#8, 0x89#8, 0xC8#8] = .ok (.movStore .none ⟨true, true, false, true⟩ 1#3 (.reg 0#3)) [] ∧
    decode [0x41#8, 0x50#8] = .ok (.push (some ⟨false, false, false, true⟩) 0#3) [] ∧
    decode [0x5C#8] = .ok (.pop none 4#3) [] ∧
    decode [0xEB#8, 0xFE#8] = .ok (.jmpRel8 none 0xFE#8) []

/-- R61 (the spec's decision D19): after any admitted legacy prefixes, the operand-size override, LOCK and the repeat
prefixes are refused, and so are a second segment override, a second `67H`, and a prefix on a form that does not take
it: an override on LEA, and any prefix on MOV r64, imm64, PUSH, POP and JMP. That the prefix is named before a missing
`REX.W` and before a register operand of LEA is the model's choice (entry 12). -/
def Obligations.UnadmittedPrefixesAreRefused : Prop :=
  ∀ (p : Legacy) (bs : List Byte),
    (∀ b ∈ [0x66#8, 0xF0#8, 0xF2#8, 0xF3#8], decode (encodeLegacy p ++ b :: bs) = .refuse .prefixNotAdmitted) ∧
      (p.ovr ≠ none → ∀ g, decode (encodeLegacy p ++ segPrefix g :: bs) = .refuse .prefixNotAdmitted) ∧
      (p.hasA32 = true → decode (encodeLegacy p ++ 0x67#8 :: bs) = .refuse .prefixNotAdmitted) ∧
      (p.ovr ≠ none → ∀ rex,
        decode (encodeLegacy p ++ encodeRex? rex ++ 0x8D#8 :: bs) = .refuse .prefixNotAdmitted) ∧
      (p ≠ .none → ∀ (rex : Option Rex) (op : Byte),
        (op = 0xEB ∨ 0x50 ≤ op.toNat ∧ op.toNat ≤ 0x5F ∨ 0xB8 ≤ op.toNat ∧ op.toNat ≤ 0xBF) →
          decode (encodeLegacy p ++ encodeRex? rex ++ op :: bs) = .refuse .prefixNotAdmitted)

/-- R62: after any admitted legacy prefixes, a REX byte followed by a legacy prefix byte, or by a second REX byte, is
refused. That `66H`, `F0H`, `F2H` and `F3H` there are named rex_misplaced is the model's choice (entry 12). -/
def Obligations.MisplacedRexIsRefused : Prop :=
  ∀ (p : Legacy) (x : Rex) (b : Byte) (bs : List Byte),
    (b ∈ [0x26#8, 0x2E#8, 0x36#8, 0x3E#8, 0x64#8, 0x65#8, 0x66#8, 0x67#8, 0xF0#8, 0xF2#8, 0xF3#8] ∨
      0x40 ≤ b.toNat ∧ b.toNat ≤ 0x4F) →
    decode (encodeLegacy p ++ encodeRex x :: b :: bs) = .refuse .rexMisplaced

/-- R69: after any legacy prefixes the opcode can follow, the opcodes of the forms that need `REX.W = 1` are refused as
32-bit instructions without it, with no REX byte or with one whose `W` is 0. Where the bytes that follow are at fault
too (LEA with `mod = 11`; a prefix before a register form of MOV, which takes none), R72 gives no order, and that
operand_size_32 is the reason named is the model's choice (entry 12). -/
def Obligations.ThirtyTwoBitFormsAreRefused : Prop :=
  ∀ (p : Legacy) (rex : Option Rex) (op : Byte) (bs : List Byte), (∀ x, rex = some x → x.w = false) →
    (op ∈ [0xA1#8, 0xA3#8, 0x8B#8, 0x89#8] ∨ op = 0x8D ∧ p.ovr = none ∨
      0xB8 ≤ op.toNat ∧ op.toNat ≤ 0xBF ∧ p = .none) →
    decode (encodeLegacy p ++ encodeRex? rex ++ op :: bs) = .refuse .operandSize32

/-- R72: after any admitted legacy prefixes and with or without a REX byte, every byte that is no prefix, no REX byte
and no opcode of the nine forms is refused by the name opcode_not_admitted. -/
def Obligations.OtherOpcodesAreRefused : Prop :=
  ∀ (p : Legacy) (rex : Option Rex) (op : Byte) (bs : List Byte),
    op ∉ [0x26#8, 0x2E#8, 0x36#8, 0x3E#8, 0x64#8, 0x65#8, 0x66#8, 0x67#8, 0xF0#8, 0xF2#8, 0xF3#8, 0x8D#8, 0xA1#8,
      0xA3#8, 0x8B#8, 0x89#8, 0xEB#8] →
    ¬ (0x40 ≤ op.toNat ∧ op.toNat ≤ 0x5F) → ¬ (0xB8 ≤ op.toNat ∧ op.toNat ≤ 0xBF) →
    decode (encodeLegacy p ++ encodeRex? rex ++ op :: bs) = .refuse .opcodeNotAdmitted

/-- R70 and R72: LEA with `mod = 11` is refused by name, with `67H` and without; and the register forms of MOV take no
legacy prefix. -/
def Obligations.RegisterFormsRefuseByName : Prop :=
  ∀ (p : Legacy) (r x b : Bool) (reg rm : BitVec 3) (bs : List Byte),
    (p.ovr = none →
      decode (encodeLegacy p ++ encodeRex ⟨true, r, x, b⟩ :: 0x8D#8 :: packFields 3#2 reg rm :: bs) =
        .refuse .leaRegisterOperand) ∧
      (p ≠ .none → ∀ op ∈ [0x8B#8, 0x89#8],
        decode (encodeLegacy p ++ encodeRex ⟨true, r, x, b⟩ :: op :: packFields 3#2 reg rm :: bs) =
          .refuse .prefixNotAdmitted)

/-- R65: RSP is the base register only through a SIB byte with `base = 100` and `B = 0`, RBP only with a displacement,
`rm` or `base` 101 and `B = 0`, and RSP is never an index. -/
def Obligations.StackBaseEncodings : Prop :=
  ∀ (rex : Rex) (asz : ASize) (ovr : Option Seg) (m : MemOperand), m.wf = true →
    ((memRef rex asz ovr m).base = .reg Reg.rsp ↔ rex.b = false ∧ ∃ sc i d, m = .sib sc i 4#3 d) ∧
      ((memRef rex asz ovr m).base = .reg Reg.rbp ↔
        rex.b = false ∧ ∃ d, d ≠ Disp.none ∧ (m = .base 5#3 d ∨ ∃ sc i, m = .sib sc i 5#3 d)) ∧
      (memRef rex asz ovr m).index ≠ some Reg.rsp

/-- R62 to R68 and R73: the reference each operand encoding stands for, in numbers: base and index registers with their
REX bits, scale `2^scale` or 1 without an index, displacement sign-extended, offset zero-extended, RIP-relative base
`next`, address size 32 exactly with `67H`, the override the instruction carries, and no implied stack reference. -/
def Obligations.ReferenceOfEachEncoding : Prop :=
  (∀ (hi : Bool) (lo : BitVec 3), (regNum hi lo).toNat = 8 * hi.toNat + lo.toNat) ∧
    (∀ p : Legacy, (p.hasA32 = true ↔ 0x67#8 ∈ encodeLegacy p) ∧
      ∀ g, p.ovr = some g ↔ segPrefix g ∈ encodeLegacy p) ∧
    (∀ (rex : Rex) (asz : ASize) (ovr : Option Seg),
      (∀ m, (memRef rex asz ovr m).asz = asz ∧ (memRef rex asz ovr m).ovr = ovr ∧
        (memRef rex asz ovr m).impliedStack = false) ∧
      (∀ rm d, let ref := memRef rex asz ovr (.base rm d)
        BaseIs rex.b rm ref ∧ NoIndex ref ∧ DispIs d ref.disp) ∧
      (∀ d, let ref := memRef rex asz ovr (.ripRel d)
        ref.base = .next ∧ NoIndex ref ∧ DispIs (.d32 d) ref.disp) ∧
      (∀ sc i b d, let ref := memRef rex asz ovr (.sib sc i b d)
        BaseIs rex.b b ref ∧ IndexIs rex.x i sc ref ∧ DispIs d ref.disp) ∧
      ∀ sc i d, let ref := memRef rex asz ovr (.sibNoBase sc i d)
        ref.base = .none ∧ IndexIs rex.x i sc ref ∧ DispIs (.d32 d) ref.disp) ∧
    ∀ (p : Legacy) (off : Moffs), let ref := moffsRef p off
      ref.base = .none ∧ NoIndex ref ∧ ref.asz = (if p.hasA32 then .a32 else .a64) ∧ ref.ovr = p.ovr ∧
        ref.impliedStack = false ∧ (∀ v, off = .m64 v → ref.disp = v) ∧
        ∀ v, off = .m32 v → ref.disp.toNat = v.toNat

/-! ### Addresses -/

/-- R77 and R78, and R86 (3): the effective address in numbers. Base, index times scale and displacement are added and
the sum is taken modulo two to the address size; the 64-bit address has that value, its upper bits zero. -/
def Obligations.EffectiveAddressInNumbers : Prop :=
  ∀ (s : State) (next : Word) (ref : Ref),
    (ea64 s next ref).toNat =
        ((baseValue s next ref.base).toNat + (indexValue s ref.index).toNat * ref.scale.factor.toNat +
          ref.disp.toNat) % 2 ^ ref.asz.bits ∧
      (ea64 s next ref).toNat < 2 ^ ref.asz.bits

/-- R77, derived there: the effective address depends only on the low bits of the registers, as many as the address
size has. -/
def Obligations.ShortAddressesReadShortRegisters : Prop :=
  ∀ (s t : State) (next : Word) (ref : Ref),
    (∀ r, (s.reg r).setWidth ref.asz.bits = (t.reg r).setWidth ref.asz.bits) → ea64 s next ref = ea64 t next ref

/-- R79 and R80: the linear address is the effective address under CS, DS, ES and SS, whatever bases they hold, and
the full 64-bit base plus the effective address under FS and GS. That the sum is taken modulo `2^64` is the spec's own
decision D6 (entry 20). -/
def Obligations.LinearAddressUnderEachSegment : Prop :=
  ∀ (s : State) (next : Word) (ref : Ref),
    (∀ seg ∈ [Seg.cs, Seg.ds, Seg.es, Seg.ss], linear s next seg ref = ea64 s next ref) ∧
      (linear s next .fs ref).toNat = (s.fs.base.toNat + (ea64 s next ref).toNat) % 2 ^ 64 ∧
      (linear s next .gs ref).toNat = (s.gs.base.toNat + (ea64 s next ref).toNat) % 2 ^ 64

/-- R87: for every admitted width, an address is canonical exactly when bits 63 to `n-1` are all zeros or all ones;
the canonical addresses are the sign extensions of their implemented bits, and they are exactly the two ranges at the
bottom and at the top of the address space. -/
def Obligations.CanonicalAddresses : Prop :=
  ∀ (n : Nat) (a : Word), 1 ≤ n → n ≤ 64 →
    (canonical n a = true ↔
        (∀ k, n - 1 ≤ k → k ≤ 63 → a.getLsbD k = false) ∨ ∀ k, n - 1 ≤ k → k ≤ 63 → a.getLsbD k = true) ∧
      (canonical n a = true ↔ a = (a.setWidth n).signExtend 64) ∧
      (canonical n a = true ↔ a.toNat < 2 ^ (n - 1) ∨ 2 ^ 64 - 2 ^ (n - 1) ≤ a.toNat)

/-- R88: with 48 implemented bits, an address is canonical exactly when each of bits 63 to 48 equals bit 47. -/
def Obligations.CanonicalFortyEightBits : Prop :=
  ∀ a : Word, canonical 48 a = true ↔ ∀ k, 48 ≤ k → k ≤ 63 → a.getLsbD k = a.getLsbD 47

/-- R98 and R6: a wider implementation keeps every canonical address, and with 64 bits every address is canonical. -/
def Obligations.WiderImplementationsKeepCanonical : Prop :=
  (∀ (n m : Nat) (a : Word), 1 ≤ n → n ≤ m → m ≤ 64 → canonical n a = true → canonical m a = true) ∧
    ∀ a : Word, canonical 64 a = true

/-- R96, derived there: for a reference of at most 15 bytes that does not wrap, it is enough to check the first and the
last byte for canonical form. -/
def Obligations.FirstAndLastByteSuffice : Prop :=
  ∀ (p : Params) (a n : Nat), p.BitsAdmitted → 1 ≤ n → n ≤ 15 → a + n ≤ addressSpace →
    canonicalAt p a = true → canonicalAt p (a + n - 1) = true → ∀ k < n, canonicalAt p (a + k) = true

/-- R90, R91, R93 and R95: the stack access of PUSH and POP, and a reference whose base is RSP or RBP without an FS or
GS override, use SS and fault with #SS; a reference with neither faults with #GP, and uses DS without an FS or GS
override (general knowledge K18); the fault is #SS exactly when the effective segment is SS; and PUSH and POP alone
make implied stack references (the spec's decision D17, entry 25). -/
def Obligations.StackFaultExactlyUnderSS : Prop :=
  (∀ ref : Ref,
    (faultClass ref = .ss ↔ effSeg ref = .ss) ∧
      (ref.impliedStack = true → effSeg ref = .ss ∧ faultClass ref = .ss) ∧
      (stackBase ref = true → ref.ovr ≠ some .fs → ref.ovr ≠ some .gs → effSeg ref = .ss ∧ faultClass ref = .ss) ∧
      (ref.impliedStack = false → stackBase ref = false →
        faultClass ref = .gp ∧ (ref.ovr ≠ some .fs → ref.ovr ≠ some .gs → effSeg ref = .ds))) ∧
    (∀ ref : Ref, stackBase ref = true ↔ ref.base = .reg Reg.rsp ∨ ref.base = .reg Reg.rbp) ∧
    ∀ (s : State) (i : Instr) (ref : Ref), dataRef s i = some ref → (ref.impliedStack = true ↔ stackRefInstr i = true)

/-- R92 and R93: a reference with an FS or GS override that is not the stack access of PUSH or POP uses that segment,
whatever its base, RSP and RBP among them, and its canonical fault is #GP. -/
def Obligations.OverrideOnStackBaseGivesGP : Prop :=
  ∀ (ref : Ref) (g : Seg), ref.impliedStack = false → ref.ovr = some g → g = .fs ∨ g = .gs →
    effSeg ref = g ∧ faultClass ref = .gp

/-- R93 and R94: an override of CS, DS, ES or SS changes neither the segment nor the exception; an SS override of a
reference that is not a stack reference still gives #GP. -/
def Obligations.OtherOverridesAreIgnored : Prop :=
  ∀ (ref : Ref) (g : Seg), g ≠ .fs → g ≠ .gs →
    effSeg { ref with ovr := some g } = effSeg { ref with ovr := none } ∧
      faultClass { ref with ovr := some g } = faultClass { ref with ovr := none } ∧
      (ref.impliedStack = false → stackBase ref = false → faultClass { ref with ovr := some g } = .gp)

/-- R96 (the spec's decisions D5, D7 and D15): what `Ref` answers, in its order: refused exactly on wrap; else the
exception of the fault class exactly when a byte is not canonical; else stuck exactly when a byte is outside
`LaunchMem`; else admitted. -/
def Obligations.ReferenceChecksInOrder : Prop :=
  ∀ (s : State) (next : Word) (ref : Ref) (n : Nat),
    let a := (refAddr s next ref).toNat
    (refCheck s next ref n = .refuse .wrap ↔ addressSpace < a + n) ∧
      ((∃ b, refCheck s next ref n = .raise (faultClass ref) b) ↔
        a + n ≤ addressSpace ∧ ∃ k < n, canonicalAt s.params (a + k) = false) ∧
      ((∃ b, refCheck s next ref n = .stuck b) ↔
        a + n ≤ addressSpace ∧ (∀ k < n, canonicalAt s.params (a + k) = true) ∧
          ∃ k < n, inLaunch s.params (a + k) = false) ∧
      (refCheck s next ref n = .ok ↔ s.Accessible a n)

/-! ### The instruction pointer and memory -/

/-- R83 and R15: the three writes of the instruction pointer, Table 3-1, seen through bits 63:32, EIP and IP; each
leaves everything but the instruction pointer. -/
def Obligations.InstructionPointerWrites : Prop :=
  ∀ s : State,
    (∀ v : BitVec 16, (s.ipWrite (.ip16 v)).ip = v ∧
      (s.ipWrite (.ip16 v)).pc.extractLsb' 16 48 = s.pc.extractLsb' 16 48) ∧
      (∀ v : BitVec 32, (s.ipWrite (.ip32 v)).eip = v ∧ (s.ipWrite (.ip32 v)).pc.extractLsb' 32 32 = 0#32) ∧
      (∀ v : BitVec 64, (s.ipWrite (.ip64 v)).pc = v) ∧
      ∀ v : IpValue, SameControl s (s.ipWrite v) ∧ (s.ipWrite v).regs = s.regs ∧ (s.ipWrite v).mem = s.mem

/-- R47 (little-endian is the spec's decision D3): a value written is read back, and after an 8-byte write the 4-byte
reads see the low and the high half. -/
def Obligations.LittleEndianReadBack : Prop :=
  (∀ (m : Memory) (a n : Nat) (v : BitVec (8 * n)), (m.write a n v).read a n = v) ∧
    ∀ (m : Memory) (a : Nat) (v : Word),
      (m.write a 8 v).read a 4 = v.extractLsb' 0 32 ∧ (m.write a 8 v).read (a + 4) 4 = v.extractLsb' 32 32

/-- R50: a write changes only the bytes written, and keeps the one form of memory (entry 7). -/
def Obligations.WriteChangesOnlyItsBytes : Prop :=
  ∀ (m : Memory) (a n b : Nat) (v : BitVec (8 * n)),
    (b < a ∨ a + n ≤ b → (m.write a n v).readByte b = m.readByte b) ∧
      (a + n ≤ addressSpace → m.wf → (m.write a n v).wf)

/-! ### The step -/

/-- R99: a running state whose bytes at `pc` are those of a well-formed instruction, each of them canonical and in
`LaunchMem`, steps as that instruction executes. -/
def Obligations.StepRunsTheDecodedInstruction : Prop :=
  ∀ (s : State) (i : Instr), s.Running → i.WellFormed → s.Holds (encode i) → step s = exec i s

/-- R99: the tests on the state and on `pc`, in their order; entries 8, 10 and 11 say how the model answers each end,
and no statement names the trace address of an exception (R113, entry 24). -/
def Obligations.StepTestsInOrder : Prop :=
  ∀ s : State,
    (s.fault ≠ .none → step s = .fault (.ended s.fault)) ∧
      (s.fault = .none → s.executes = false → step s = .refused .modeNotAdmitted) ∧
      (s.fault = .none → s.executes = true →
        (s.pc = s.params.codeEnd → step s = .fault .final) ∧
          (s.pc ≠ s.params.codeEnd →
            (canonical s.params.laBits s.pc = false → ∃ trace, step s = .next (s.raise .gp trace)) ∧
              (canonical s.params.laBits s.pc = true → inCode s.params s.pc.toNat = false →
                step s = .refused .fetchOutsideCode)))

/-- R97 (the spec's decision D24): the bytes of an instruction are checked in address order as the decoder asks for
them: where the first `k` bytes of a well-formed instruction stand at `pc` and the next one would wrap, is not
canonical, or is outside `LaunchMem`, the step is refused, raises #GP and never #SS, or is stuck. -/
def Obligations.FetchChecksEachByte : Prop :=
  ∀ (s : State) (i : Instr) (k : Nat), s.Running → i.WellFormed → k < instrLength i → s.Holds ((encode i).take k) →
    (addressSpace ≤ s.pc.toNat + k → step s = .refused .wrap) ∧
      (s.pc.toNat + k < addressSpace →
        (canonicalAt s.params (s.pc.toNat + k) = false →
          ∃ trace, step s = .next (s.raise .gp trace)) ∧
          (canonicalAt s.params (s.pc.toNat + k) = true → inLaunch s.params (s.pc.toNat + k) = false →
            ∃ b, step s = .fault (.stuck b)))

/-- R72: where the bytes at `pc` decide a refusal, the step is refused by that name. -/
def Obligations.UndecodableBytesAreRefused : Prop :=
  ∀ (s : State) (bs : List Byte) (r : Reject), s.Running → s.Holds bs → decode bs = .refuse r →
    step s = .refused (.undecodable r)

/-! ### Completion: what each instruction does -/

/-- R100: LEA completes in every state of 64-bit mode, whatever the address: the destination takes the effective
address, formed from the old registers, and nothing else but `pc` changes. -/
def Obligations.LeaCompletes : Prop :=
  ∀ (s : State) (a32 : Bool) (rex : Rex) (reg : BitVec 3) (m : MemOperand), s.executes = true →
    let i := Instr.lea a32 rex reg m
    let ref := memRef rex (if a32 then .a32 else .a64) none m
    ∃ t, exec i s = .next t ∧
      WritesReg s t (regNum rex.r reg) (ea64 s (s.pc + BitVec.ofNat 64 (instrLength i)) ref)
        (s.pc + BitVec.ofNat 64 (instrLength i))

/-- R101: MOV r64, imm64 completes in every state of 64-bit mode: the destination takes the whole immediate. -/
def Obligations.MovImmediateCompletes : Prop :=
  ∀ (s : State) (rex : Rex) (rd : BitVec 3) (imm : BitVec 64), s.executes = true →
    ∃ t, exec (.movImm64 rex rd imm) s = .next t ∧ WritesReg s t (regNum rex.b rd) imm (s.pc + 10#64)

/-- R104 and R105: the register forms of MOV complete in every state of 64-bit mode: no reference, no check. -/
def Obligations.MovBetweenRegistersCompletes : Prop :=
  ∀ (s : State) (p : Legacy) (rex : Rex) (reg rm : BitVec 3), s.executes = true →
    (∃ t, exec (.movLoad p rex reg (.reg rm)) s = .next t ∧
      WritesReg s t (regNum rex.r reg) (s.reg (regNum rex.b rm)) (s.nextPc (.movLoad p rex reg (.reg rm)))) ∧
      ∃ t, exec (.movStore p rex reg (.reg rm)) s = .next t ∧
        WritesReg s t (regNum rex.b rm) (s.reg (regNum rex.r reg)) (s.nextPc (.movStore p rex reg (.reg rm)))

/-- R102 and R104: a load completes where its eight bytes are accessible: the destination takes the little-endian value
of the bytes at the linear address, which is formed from the old registers. -/
def Obligations.MovLoadsComplete : Prop :=
  (∀ (s : State) (p : Legacy) (rex : Rex) (off : Moffs), s.executes = true →
    let next := s.nextPc (.movLoadMoffs p rex off)
    let a := (refAddr s next (moffsRef p off)).toNat
    s.Accessible a 8 →
      ∃ t v, exec (.movLoadMoffs p rex off) s = .next t ∧ s.HasWord a v ∧ WritesReg s t Reg.rax v next) ∧
    ∀ (s : State) (p : Legacy) (rex : Rex) (reg : BitVec 3) (m : MemOperand), s.executes = true →
      let next := s.nextPc (.movLoad p rex reg (.mem m))
      let a := (refAddr s next (memRef rex (asize64 p.hasA32) p.ovr m)).toNat
      s.Accessible a 8 →
        ∃ t v, exec (.movLoad p rex reg (.mem m)) s = .next t ∧ s.HasWord a v ∧ WritesReg s t (regNum rex.r reg) v next

/-- R103 and R105: a store completes where its eight bytes are accessible and outside the program: they take the
source register's value, and no other byte and no register changes. -/
def Obligations.MovStoresComplete : Prop :=
  (∀ (s : State) (p : Legacy) (rex : Rex) (off : Moffs), s.executes = true →
    let next := s.nextPc (.movStoreMoffs p rex off)
    let a := (refAddr s next (moffsRef p off)).toNat
    s.Accessible a 8 → (∀ k < 8, inCode s.params (a + k) = false) →
      ∃ t, exec (.movStoreMoffs p rex off) s = .next t ∧ WritesMem s t a (s.reg Reg.rax) next) ∧
    ∀ (s : State) (p : Legacy) (rex : Rex) (reg : BitVec 3) (m : MemOperand), s.executes = true →
      let next := s.nextPc (.movStore p rex reg (.mem m))
      let a := (refAddr s next (memRef rex (asize64 p.hasA32) p.ovr m)).toNat
      s.Accessible a 8 → (∀ k < 8, inCode s.params (a + k) = false) →
        ∃ t, exec (.movStore p rex reg (.mem m)) s = .next t ∧ WritesMem s t a (s.reg (regNum rex.r reg)) next

/-- R106: PUSH completes where the eight bytes at `RSP - 8` are accessible and outside the program: they take the value
the source had before the decrement, RSP takes that address, and nothing else but `pc` changes. -/
def Obligations.PushCompletes : Prop :=
  ∀ (s : State) (rex : Option Rex) (rd : BitVec 3), s.executes = true →
    let a := s.reg Reg.rsp - 8#64
    s.Accessible a.toNat 8 → (∀ k < 8, inCode s.params (a.toNat + k) = false) →
      ∃ t, exec (.push rex rd) s = .next t ∧ StoresWord s t a.toNat (s.reg (regNum (rexB rex) rd)) ∧
        t.reg Reg.rsp = a ∧ (∀ r, r ≠ Reg.rsp → t.reg r = s.reg r) ∧ t.pc = s.nextPc (.push rex rd) ∧ SameControl s t

/-- R107: POP completes where the eight bytes at RSP are accessible: the destination takes their value, RSP grows by 8
unless it is the destination, and nothing else but `pc` changes. -/
def Obligations.PopCompletes : Prop :=
  ∀ (s : State) (rex : Option Rex) (rd : BitVec 3), s.executes = true →
    let a := s.reg Reg.rsp
    let d := regNum (rexB rex) rd
    s.Accessible a.toNat 8 →
      ∃ t v, exec (.pop rex rd) s = .next t ∧ s.HasWord a.toNat v ∧ t.reg d = v ∧
        (d ≠ Reg.rsp → t.reg Reg.rsp = a + 8#64) ∧ (∀ r, r ≠ Reg.rsp → r ≠ d → t.reg r = s.reg r) ∧
        t.pc = s.nextPc (.pop rex rd) ∧ (∀ b, t.byteAt b = s.byteAt b) ∧ SameControl s t

/-- R108: JMP rel8 completes in every state of 64-bit mode, whatever the target: `pc` takes `next` plus the
sign-extended offset modulo `2^64`, and nothing else changes. -/
def Obligations.JmpCompletes : Prop :=
  ∀ (s : State) (rex : Option Rex) (rel : BitVec 8), s.executes = true →
    ∃ t, exec (.jmpRel8 rex rel) s = .next t ∧
      (t.pc.toNat : Int) = ((s.nextPc (.jmpRel8 rex rel)).toNat + rel.toInt) % 2 ^ 64 ∧
      (∀ r, t.reg r = s.reg r) ∧ (∀ b, t.byteAt b = s.byteAt b) ∧ SameControl s t

/-- R106 and R107 together: a register pushed and popped again comes back, the stack pointer is where it was, and no
other register changes. -/
def Obligations.PopAfterPushRestores : Prop :=
  ∀ (s t : State) (rex rex' : Option Rex) (rd rd' : BitVec 3), exec (.push rex rd) s = .next t → t.fault = .none →
    regNum (rexB rex') rd' ≠ Reg.rsp →
      ∃ u, exec (.pop rex' rd') t = .next u ∧ u.reg (regNum (rexB rex') rd') = s.reg (regNum (rexB rex) rd) ∧
        ∀ r, r ≠ regNum (rexB rex') rd' → u.reg r = s.reg r

/-! ### Where an instruction stops or traps -/

/-- R111, R112, R114: an instruction whose data reference touches a non-canonical byte takes the exception of the
reference's fault class; only the fault component changes. -/
def Obligations.NonCanonicalReferenceTraps : Prop :=
  ∀ (s : State) (i : Instr) (ref : Ref), s.executes = true → dataRef s i = some ref →
    let a := (refAddr s (s.nextPc i) ref).toNat
    a + 8 ≤ addressSpace → (∃ k < 8, canonicalAt s.params (a + k) = false) →
      ∃ trace, exec i s = .next (s.raise (faultClass ref) trace)

/-- R51 and R52 (the spec's decisions D5 and D15): a reference that would pass the top of the address space is refused;
a canonical one that leaves `LaunchMem` is stuck. -/
def Obligations.WrapIsRefusedAndOutsideIsStuck : Prop :=
  ∀ (s : State) (i : Instr) (ref : Ref), s.executes = true → dataRef s i = some ref →
    let a := (refAddr s (s.nextPc i) ref).toNat
    (addressSpace < a + 8 → exec i s = .refused .wrap) ∧
      (a + 8 ≤ addressSpace → (∀ k < 8, canonicalAt s.params (a + k) = true) →
        (∃ k < 8, inLaunch s.params (a + k) = false) → ∃ b, exec i s = .fault (.stuck b))

/-- R58 (the spec's decision D14): a store whose bytes are accessible and touch the program is refused. -/
def Obligations.StoreToCodeIsRefused : Prop :=
  ∀ (s : State) (i : Instr) (ref : Ref), s.executes = true → isStore i = true → dataRef s i = some ref →
    let a := (refAddr s (s.nextPc i) ref).toNat
    s.Accessible a 8 → (∃ k < 8, inCode s.params (a + k) = true) → exec i s = .refused .storeToCode

/-- R112 and R91: a step raises #SS only where the instruction whose bytes stand at `pc` is PUSH or POP, or makes a data
reference whose base register is RSP or RBP without an FS or GS override. -/
def Obligations.StackFaultOnlyFromStackReferences : Prop :=
  ∀ (s t : State) (trace : Word), step s = .next t → t.fault = .raised .ss trace →
    s.Running ∧ ∃ (i : Instr) (ref : Ref), i.WellFormed ∧ s.Holds (encode i) ∧ exec i s = .next t ∧
      dataRef s i = some ref ∧
      (stackRefInstr i = true ∨
        stackBase ref = true ∧ ref.impliedStack = false ∧ ref.ovr ≠ some .fs ∧ ref.ovr ≠ some .gs)

/-- R3 and R11 (entry 11): no instruction executes outside 64-bit mode, nor without Intel 64. -/
def Obligations.NothingExecutesOutsideMode64 : Prop :=
  ∀ (s : State) (i : Instr), s.mode ≠ .mode64 ∨ s.params.intel64 = false → exec i s = .refused .modeNotAdmitted

/-! ### Frames and invariants of every step -/

/-- R100 to R108: the frame of every instruction. A register other than the destinations (the destination field's
register, RAX for the load from an offset, RSP for PUSH and POP), a byte of memory other than the eight stored, and
the control state but for `fault`, are as they were. -/
def Obligations.FrameOfEveryInstruction : Prop :=
  ∀ (s t : State) (i : Instr), exec i s = .next t →
    (∀ r, r ∉ destRegs i → t.reg r = s.reg r) ∧
      (isStore i = false → ∀ b, t.byteAt b = s.byteAt b) ∧
      (isStore i = true → ∀ ref, dataRef s i = some ref →
        ∀ b, b < (refAddr s (s.nextPc i) ref).toNat ∨ (refAddr s (s.nextPc i) ref).toNat + 8 ≤ b →
          t.byteAt b = s.byteAt b) ∧
      SameControl s { t with fault := s.fault }

/-- R11, R16, R17, R18: no step changes the mode, the parameters, a segment register, `cs_default` or `paging`. -/
def Obligations.StepKeepsControlState : Prop :=
  ∀ s t : State, step s = .next t → SameControl s { t with fault := s.fault }

/-- R123 and R33: the premises of a run that are not about its start, that on `Translate` among them, stay true at every
step. -/
def Obligations.StepKeepsAdmitted : Prop :=
  ∀ (tr : Nat → Option Nat) (s t : State), s.Admitted tr → step s = .next t → t.Admitted tr

/-- R123, R33 and R58: along a whole run from a launch state the premises stay true, no parameter changes, and the
program's bytes stay as the host loaded them. -/
def Obligations.RunsStayAdmitted : Prop :=
  ∀ (tr : Nat → Option Nat) (s : State) (n : Nat), s.LaunchAdmitted tr →
    (s.after n).Admitted tr ∧ (s.after n).params = s.params ∧
      ∀ a, inCode s.params a = true → (s.after n).byteAt a = s.byteAt a

/-- R123 (the values are the model's choice, entries 2 to 7): the model's reset state, the empty program of its own
choosing, is a launch state under every paging function that meets R33's premise on its memory, and it is final. -/
def Obligations.ResetIsALaunchState : Prop :=
  (∀ tr : Nat → Option Nat, TranslatePremise tr State.reset.params → State.reset.LaunchAdmitted tr) ∧ State.reset.Final

/-- R58 (the spec's decision D14): no step changes a byte of the program. -/
def Obligations.ProgramBytesAreImmutable : Prop :=
  ∀ s t : State, step s = .next t → ∀ a, inCode s.params a = true → t.byteAt a = s.byteAt a

/-- R114 (the spec's decisions D8 and D9): an exception is precise: a step that ends with a fault has changed the
fault component alone, from none to the exception raised. -/
def Obligations.ExceptionsArePrecise : Prop :=
  ∀ s t : State, step s = .next t → t.fault ≠ .none → s.fault = .none ∧ ∃ x trace, t = s.raise x trace

/-- R99 and R20: what a run's transition leaves in the fault component, and that a faulted and a final run stay as they
are for ever (entries 9 and 10). -/
def Obligations.RunEndsForGood : Prop :=
  ∀ s : State,
    (∀ n, s.fault ≠ .none ∨ s.executes = true ∧ s.Final → s.after n = s) ∧
      (∀ r, step s = .refused r → advance s = { s with fault := .refused }) ∧
      ∀ a, step s = .fault (.stuck a) → advance s = { s with fault := .stuck }

/-- R33, R79 and the table under R22: no step reads a selector, the base of CS, DS, ES or SS, `cs_default`, `paging` or
`PA_BITS`: changing them changes no answer. -/
def Obligations.UnreadStateChangesNothing : Prop :=
  ∀ (s : State) (u : Unread), step (s.withUnread u) = mapNext (fun t => t.withUnread u) (step s)

/-! ### Modes, sizes and address spaces -/

/-- R17, R44, R45, R68, R69, R74, R82: the address size of an instruction in each of the six modes, without and with the
override, and the operand size, for which one default serves outside 64-bit mode. In virtual-8086 mode and SMM the spec
states none. That an override selects exactly the other of 16 and 32 is general knowledge K9, PRESUMED (entry 21). -/
def Obligations.AddressSizesOfEachMode : Prop :=
  ∀ d : DefaultSize,
    (∀ m ∈ [Mode.protectedMode, Mode.compatibility],
      addressSize m d false = some (if d = .s16 then .a16 else .a32) ∧
        addressSize m d true = some (if d = .s16 then .a32 else .a16)) ∧
      addressSize .realAddress d false = some .a16 ∧ addressSize .realAddress d true = some .a32 ∧
      addressSize .mode64 d false = some .a64 ∧ addressSize .mode64 d true = some .a32 ∧
      (∀ o : Bool, addressSize .virtual8086 d o = none ∧ addressSize .smm d o = none) ∧
      (∀ (m : Mode) (o : Bool), m ≠ .mode64 → operandSize m d o = addressSize m d o) ∧
      operandSize .mode64 d false = some .a64

/-- R37: real-address mode offers the real-address-mode memory model and no other. -/
def Obligations.RealAddressModeHasOneModel : Prop :=
  ∀ mm : MemoryModel, offers .realAddress mm = (if mm = .realAddress then .yes else .no)

/-- R31 and R32: with paging disabled each linear address has one physical address, its own, and no two share one; with
paging the mapping is the paging function's. DEDUCED: the machine's own mapping follows its `paging` flag, but in 64-bit
mode, where it is the paging function whatever the flag (R35; entry 21), and in SMM, whose addresses are SMRAM's and
have none (R38; entry 32). -/
def Obligations.DirectMappingIsOneToOne : Prop :=
  ∀ (tr : Nat → Option Nat) (s : State) (pae : Bool) (a b : Nat),
    physical tr .direct a = some a ∧ (physical tr .direct a = physical tr .direct b → a = b) ∧
      physical tr .paging a = tr a ∧ physical tr .paePaging a = tr a ∧
      (s.mode ≠ .mode64 → s.mode ≠ .smm →
        (s.paging = false → s.physical pae a = some a) ∧
          (s.paging = true → s.physical pae a = Config.translate a)) ∧
      (s.mode = .mode64 → s.physical pae a = Config.translate a) ∧
      (s.mode = .smm → s.physical pae a = none)

/-- R30, R31, R34, R35, R38, R45 and R46: which physical addresses a mode's linear addresses can reach. 64-bit mode
reaches all of the physical address space, its paging being PAE whatever the flags; without Intel 64 an address above
`FFFF_FFFFH` takes protected mode, paging and PAE; with paging disabled the other modes reach their own linear
addresses, `2^20` in real-address and virtual-8086 mode and `2^32` in protected and compatibility mode; without PAE
none above `FFFF_FFFFH` is reached outside 64-bit mode; and SMM, whose addresses lie in SMRAM, reaches none at all
(entries 21 and 32). -/
def Obligations.PhysicalAddressesReached : Prop :=
  ∀ (p : Params) (paging pae : Bool) (a : Nat),
    mapping .mode64 paging pae = some .paePaging ∧
      (p.intel64 = true → (physicalReachable p .mode64 paging pae a = true ↔ a < 2 ^ p.paBits)) ∧
      (p.intel64 = false → 2 ^ 32 ≤ a → ∀ m,
        (physicalReachable p m paging pae a = true ↔
          a < 2 ^ p.paBits ∧ m = .protectedMode ∧ paging = true ∧ pae = true)) ∧
      (∀ m ∈ [Mode.realAddress, Mode.virtual8086],
        (physicalReachable p m false pae a = true ↔ a < 2 ^ p.paBits ∧ a < 2 ^ 20)) ∧
      (∀ m ∈ [Mode.protectedMode, Mode.compatibility], modeExists p m = true →
        (physicalReachable p m false pae a = true ↔ a < 2 ^ p.paBits ∧ a < 2 ^ 32)) ∧
      (∀ m, m ≠ .mode64 → physicalReachable p m paging false a = true → a < 2 ^ 32) ∧
      Mode.smm.space = .smram ∧ (∀ m : Mode, m ≠ .smm → m.space ≠ .smram) ∧
      physicalReachable p .smm paging pae a = false

/-- R82 and R81 (base plus offset is general knowledge K7, PRESUMED, entry 21): in compatibility mode the linear address
of a 16- or 32-bit reference is the segment's base plus the effective address where that is below `2^32`, and no address
otherwise; the effective address is below `2^32`; and both are canonical from 33 implemented bits on. No
segment's own size is checked (entry 31). -/
def Obligations.CompatibilityAddressesAreLow : Prop :=
  ∀ (base : BitVec 16 → Nat) (s : State) (next : Word) (sel : BitVec 16) (ref : Ref), ref.asz ≠ .a64 →
    (ea64 s next ref).toNat < 2 ^ 32 ∧
      (∀ a, compatLinear base s next sel ref = some a ↔ a = base sel + (ea64 s next ref).toNat ∧ a < 2 ^ 32) ∧
      (33 ≤ s.params.laBits → s.params.laBits ≤ 64 →
        canonical s.params.laBits (ea64 s next ref) = true ∧
          ∀ a, compatLinear base s next sel ref = some a → canonicalAt s.params a = true)

/-- R30 and R45 (16 times the selector is general knowledge K8, PRESUMED, entry 21): in the real-address-mode model
the linear address is 16 times the selector plus the offset where the offset is one of a segment's `2^16` bytes and
the sum is at most `000F_FFFFH`; any other reference has no meaning, which for the offset is the model's choice (entry
31). -/
def Obligations.RealAddressesAreCapped : Prop :=
  ∀ (fp : FarPointer) (a : Nat),
    realLinear fp = some a ↔ fp.offset < 2 ^ 16 ∧ a = 16 * fp.selector.toNat + fp.offset ∧ a ≤ 0xFFFFF
end

