-- ==== Sys2Proof/Laws/State.lean ====
section
/-! SUPPORT. One lemma per field per update of the state, and the register file read after a write. -/

namespace Sys2Proof.Machine

/-! ### `setReg` -/

@[simp] theorem setReg_params (s : State) (r : Reg) (v : Word) : (s.setReg r v).params = s.params := rfl
@[simp] theorem setReg_mode (s : State) (r : Reg) (v : Word) : (s.setReg r v).mode = s.mode := rfl
@[simp] theorem setReg_pc (s : State) (r : Reg) (v : Word) : (s.setReg r v).pc = s.pc := rfl
@[simp] theorem setReg_cs (s : State) (r : Reg) (v : Word) : (s.setReg r v).cs = s.cs := rfl
@[simp] theorem setReg_ds (s : State) (r : Reg) (v : Word) : (s.setReg r v).ds = s.ds := rfl
@[simp] theorem setReg_es (s : State) (r : Reg) (v : Word) : (s.setReg r v).es = s.es := rfl
@[simp] theorem setReg_ss (s : State) (r : Reg) (v : Word) : (s.setReg r v).ss = s.ss := rfl
@[simp] theorem setReg_fs (s : State) (r : Reg) (v : Word) : (s.setReg r v).fs = s.fs := rfl
@[simp] theorem setReg_gs (s : State) (r : Reg) (v : Word) : (s.setReg r v).gs = s.gs := rfl
@[simp] theorem setReg_csDefault (s : State) (r : Reg) (v : Word) : (s.setReg r v).csDefault = s.csDefault := rfl
@[simp] theorem setReg_paging (s : State) (r : Reg) (v : Word) : (s.setReg r v).paging = s.paging := rfl
@[simp] theorem setReg_mem (s : State) (r : Reg) (v : Word) : (s.setReg r v).mem = s.mem := rfl
@[simp] theorem setReg_fault (s : State) (r : Reg) (v : Word) : (s.setReg r v).fault = s.fault := rfl
@[simp] theorem setReg_byteAt (s : State) (r : Reg) (v : Word) (a : Nat) : (s.setReg r v).byteAt a = s.byteAt a := rfl
@[simp] theorem setReg_executes (s : State) (r : Reg) (v : Word) : (s.setReg r v).executes = s.executes := rfl

@[simp] theorem reg_setReg_same (s : State) (r : Reg) (v : Word) : (s.setReg r v).reg r = v := by
  simp [State.reg, State.setReg]

theorem reg_setReg (s : State) (r q : Reg) (v : Word) :
    (s.setReg r v).reg q = if q = r then v else s.reg q := by
  by_cases h : q = r
  · simp [h]
  · have hn : r.toNat ≠ q.toNat := fun e => h (BitVec.eq_of_toNat_eq e.symm)
    simp [State.reg, State.setReg, h, hn]

theorem reg_setReg_other (s : State) {r q : Reg} (v : Word) (h : q ≠ r) : (s.setReg r v).reg q = s.reg q := by
  simp [reg_setReg, h]

/-! ### `ipWrite` -/

@[simp] theorem ipWrite_ip64 (s : State) (v : Word) : (s.ipWrite (.ip64 v)).pc = v := rfl

@[simp] theorem ipWrite_params (s : State) (v : IpValue) : (s.ipWrite v).params = s.params := by cases v <;> rfl
@[simp] theorem ipWrite_mode (s : State) (v : IpValue) : (s.ipWrite v).mode = s.mode := by cases v <;> rfl
@[simp] theorem ipWrite_regs (s : State) (v : IpValue) : (s.ipWrite v).regs = s.regs := by cases v <;> rfl
@[simp] theorem ipWrite_reg (s : State) (v : IpValue) (r : Reg) : (s.ipWrite v).reg r = s.reg r := by cases v <;> rfl
@[simp] theorem ipWrite_cs (s : State) (v : IpValue) : (s.ipWrite v).cs = s.cs := by cases v <;> rfl
@[simp] theorem ipWrite_ds (s : State) (v : IpValue) : (s.ipWrite v).ds = s.ds := by cases v <;> rfl
@[simp] theorem ipWrite_es (s : State) (v : IpValue) : (s.ipWrite v).es = s.es := by cases v <;> rfl
@[simp] theorem ipWrite_ss (s : State) (v : IpValue) : (s.ipWrite v).ss = s.ss := by cases v <;> rfl
@[simp] theorem ipWrite_fs (s : State) (v : IpValue) : (s.ipWrite v).fs = s.fs := by cases v <;> rfl
@[simp] theorem ipWrite_gs (s : State) (v : IpValue) : (s.ipWrite v).gs = s.gs := by cases v <;> rfl
@[simp] theorem ipWrite_csDefault (s : State) (v : IpValue) : (s.ipWrite v).csDefault = s.csDefault := by
  cases v <;> rfl
@[simp] theorem ipWrite_paging (s : State) (v : IpValue) : (s.ipWrite v).paging = s.paging := by cases v <;> rfl
@[simp] theorem ipWrite_mem (s : State) (v : IpValue) : (s.ipWrite v).mem = s.mem := by cases v <;> rfl
@[simp] theorem ipWrite_fault (s : State) (v : IpValue) : (s.ipWrite v).fault = s.fault := by cases v <;> rfl
@[simp] theorem ipWrite_byteAt (s : State) (v : IpValue) (a : Nat) : (s.ipWrite v).byteAt a = s.byteAt a := by
  cases v <;> rfl

/-! ### `setMem` -/

@[simp] theorem setMem_params (s : State) (m : Memory) : (s.setMem m).params = s.params := rfl
@[simp] theorem setMem_mode (s : State) (m : Memory) : (s.setMem m).mode = s.mode := rfl
@[simp] theorem setMem_regs (s : State) (m : Memory) : (s.setMem m).regs = s.regs := rfl
@[simp] theorem setMem_reg (s : State) (m : Memory) (r : Reg) : (s.setMem m).reg r = s.reg r := rfl
@[simp] theorem setMem_pc (s : State) (m : Memory) : (s.setMem m).pc = s.pc := rfl
@[simp] theorem setMem_cs (s : State) (m : Memory) : (s.setMem m).cs = s.cs := rfl
@[simp] theorem setMem_ds (s : State) (m : Memory) : (s.setMem m).ds = s.ds := rfl
@[simp] theorem setMem_es (s : State) (m : Memory) : (s.setMem m).es = s.es := rfl
@[simp] theorem setMem_ss (s : State) (m : Memory) : (s.setMem m).ss = s.ss := rfl
@[simp] theorem setMem_fs (s : State) (m : Memory) : (s.setMem m).fs = s.fs := rfl
@[simp] theorem setMem_gs (s : State) (m : Memory) : (s.setMem m).gs = s.gs := rfl
@[simp] theorem setMem_csDefault (s : State) (m : Memory) : (s.setMem m).csDefault = s.csDefault := rfl
@[simp] theorem setMem_paging (s : State) (m : Memory) : (s.setMem m).paging = s.paging := rfl
@[simp] theorem setMem_mem (s : State) (m : Memory) : (s.setMem m).mem = m := rfl
@[simp] theorem setMem_fault (s : State) (m : Memory) : (s.setMem m).fault = s.fault := rfl

/-! ### `raise` -/

@[simp] theorem raise_params (s : State) (x : Exc) (a : Word) : (s.raise x a).params = s.params := rfl
@[simp] theorem raise_mode (s : State) (x : Exc) (a : Word) : (s.raise x a).mode = s.mode := rfl
@[simp] theorem raise_regs (s : State) (x : Exc) (a : Word) : (s.raise x a).regs = s.regs := rfl
@[simp] theorem raise_reg (s : State) (x : Exc) (a : Word) (r : Reg) : (s.raise x a).reg r = s.reg r := rfl
@[simp] theorem raise_pc (s : State) (x : Exc) (a : Word) : (s.raise x a).pc = s.pc := rfl
@[simp] theorem raise_cs (s : State) (x : Exc) (a : Word) : (s.raise x a).cs = s.cs := rfl
@[simp] theorem raise_ds (s : State) (x : Exc) (a : Word) : (s.raise x a).ds = s.ds := rfl
@[simp] theorem raise_es (s : State) (x : Exc) (a : Word) : (s.raise x a).es = s.es := rfl
@[simp] theorem raise_ss (s : State) (x : Exc) (a : Word) : (s.raise x a).ss = s.ss := rfl
@[simp] theorem raise_fs (s : State) (x : Exc) (a : Word) : (s.raise x a).fs = s.fs := rfl
@[simp] theorem raise_gs (s : State) (x : Exc) (a : Word) : (s.raise x a).gs = s.gs := rfl
@[simp] theorem raise_csDefault (s : State) (x : Exc) (a : Word) : (s.raise x a).csDefault = s.csDefault := rfl
@[simp] theorem raise_paging (s : State) (x : Exc) (a : Word) : (s.raise x a).paging = s.paging := rfl
@[simp] theorem raise_mem (s : State) (x : Exc) (a : Word) : (s.raise x a).mem = s.mem := rfl
@[simp] theorem raise_fault (s : State) (x : Exc) (a : Word) : (s.raise x a).fault = .raised x a := rfl
@[simp] theorem raise_byteAt (s : State) (x : Exc) (a : Word) (b : Nat) : (s.raise x a).byteAt b = s.byteAt b := rfl

end Sys2Proof.Machine
end

