-- ==== Sys2Proof/Laws/Admit.lean ====
section
/-! SUPPORT. The checks of a reference, each answer characterised once, and what follows from a next state. -/

namespace Sys2Proof.Machine

/-! ### `checkBytes` (41_canonical_addressing.md R96) -/

theorem checkBytes_refuse_iff (p : Params) (x : Exc) (a n : Nat) (r : Refusal) :
    checkBytes p x a n = .refuse r ↔ r = .wrap ∧ addressSpace < a + n := by
  unfold checkBytes
  split
  · next h => simp [h, eq_comm]
  · next h => split <;> [skip; split] <;> simp [h]

theorem checkBytes_raise_iff (p : Params) (x y : Exc) (a n : Nat) (b : Word) :
    checkBytes p x a n = .raise y b ↔
      a + n ≤ addressSpace ∧ y = x ∧ ∃ k < n, b = BitVec.ofNat 64 (a + k) ∧ canonicalAt p (a + k) = false ∧
        ∀ j < k, canonicalAt p (a + j) = true := by
  unfold checkBytes
  split
  · next h => simp; omega
  · next h =>
    split
    · next k hk =>
      simp only [List.find?_range_eq_some, List.mem_range, Bool.not_eq_true', Bool.not_eq_false'] at hk
      simp only [Admit.raise.injEq]
      refine ⟨fun he => ⟨by omega, he.1.symm, k, hk.2.1, he.2.symm, hk.1, fun j hj => by simpa using hk.2.2 j hj⟩, ?_⟩
      rintro ⟨-, rfl, j, hj, rfl, hc, hall⟩
      obtain hlt | rfl | hgt := Nat.lt_trichotomy k j
      · exact absurd (hall k hlt) (by simp [hk.1])
      · exact ⟨rfl, rfl⟩
      · exact absurd (hk.2.2 j hgt) (by simp [hc])
    · next hk =>
      have hall : ∀ k < n, canonicalAt p (a + k) = true := by simpa using hk
      constructor
      · intro he; split at he <;> simp at he
      · rintro ⟨-, -, k, hkn, -, hc, -⟩
        exact absurd (hall k hkn) (by simp [hc])

theorem checkBytes_stuck_iff (p : Params) (x : Exc) (a n : Nat) (b : Word) :
    checkBytes p x a n = .stuck b ↔
      a + n ≤ addressSpace ∧ (∀ k < n, canonicalAt p (a + k) = true) ∧
        ∃ k < n, b = BitVec.ofNat 64 (a + k) ∧ inLaunch p (a + k) = false ∧ ∀ j < k, inLaunch p (a + j) = true := by
  unfold checkBytes
  split
  · next h => simp; omega
  · next h =>
    split
    · next k hk =>
      simp only [List.find?_range_eq_some, List.mem_range, Bool.not_eq_true'] at hk
      simp only [reduceCtorEq, false_iff]
      rintro ⟨-, hall, -⟩
      exact absurd (hall k hk.2.1) (by simp [hk.1])
    · next hk =>
      have hall : ∀ k < n, canonicalAt p (a + k) = true := by simpa using hk
      split
      · next k hk =>
        simp only [List.find?_range_eq_some, List.mem_range, Bool.not_eq_true', Bool.not_eq_false'] at hk
        simp only [Admit.stuck.injEq]
        refine ⟨fun he => ⟨by omega, hall, k, hk.2.1, he.symm, hk.1, fun j hj => by simpa using hk.2.2 j hj⟩, ?_⟩
        rintro ⟨-, -, j, hj, rfl, hc, hl⟩
        obtain hlt | rfl | hgt := Nat.lt_trichotomy k j
        · exact absurd (hl k hlt) (by simp [hk.1])
        · rfl
        · exact absurd (hk.2.2 j hgt) (by simp [hc])
      · next hk =>
        have hl : ∀ k < n, inLaunch p (a + k) = true := by simpa using hk
        simp only [reduceCtorEq, false_iff]
        rintro ⟨-, -, k, hkn, -, hc, -⟩
        exact absurd (hl k hkn) (by simp [hc])

theorem checkBytes_ok_iff (p : Params) (x : Exc) (a n : Nat) :
    checkBytes p x a n = .ok ↔
      a + n ≤ addressSpace ∧ ∀ k < n, canonicalAt p (a + k) = true ∧ inLaunch p (a + k) = true := by
  unfold checkBytes
  split
  · next h => simp; omega
  · next h =>
    split
    · next k hk =>
      simp only [List.find?_range_eq_some, List.mem_range, Bool.not_eq_true'] at hk
      simp only [reduceCtorEq, false_iff]
      rintro ⟨-, hall⟩
      exact absurd (hall k hk.2.1).1 (by simp [hk.1])
    · next hk =>
      have hall : ∀ k < n, canonicalAt p (a + k) = true := by simpa using hk
      split
      · next k hk =>
        simp only [List.find?_range_eq_some, List.mem_range, Bool.not_eq_true'] at hk
        simp only [reduceCtorEq, false_iff]
        rintro ⟨-, hl⟩
        exact absurd (hl k hk.2.1).2 (by simp [hk.1])
      · next hk =>
        have hl : ∀ k < n, inLaunch p (a + k) = true := by simpa using hk
        simp only [true_iff]
        exact ⟨by omega, fun k hkn => ⟨hall k hkn, hl k hkn⟩⟩

/-! ### Going on after a check -/

/-- A next state after a check: the check passed, or the exception was taken. -/
theorem admitted_next {s t : State} {c : Admit} {k : Result} (h : s.admitted c k = .next t) :
    (c = .ok ∧ k = .next t) ∨ ∃ x a, c = .raise x a ∧ t = s.raise x a := by
  cases c with
  | ok => exact .inl ⟨rfl, h⟩
  | raise x a =>
    simp only [State.admitted, Host.Outcome.next.injEq] at h
    exact .inr ⟨x, a, rfl, h.symm⟩
  | refuse r => simp [State.admitted] at h
  | stuck a => simp [State.admitted] at h

theorem inMode64_of_executes {s : State} (h : s.executes = true) (k : Result) : s.inMode64 k = k := by
  simp [State.inMode64, h]

/-- A next state in 64-bit mode: the mode executes, and the rest answered it. -/
theorem inMode64_next {s t : State} {k : Result} (h : s.inMode64 k = .next t) : s.executes = true ∧ k = .next t := by
  unfold State.inMode64 at h
  split at h
  · next he => exact ⟨he, h⟩
  · simp at h

/-- A next state after a load: the bytes were read, or the reference's exception was taken. -/
theorem loadRef_next {s t : State} {next : Word} {ref : Ref} {k : Word → Result} (h : loadRef s next ref k = .next t) :
    (refCheck s next ref accessBytes = .ok ∧ k (s.mem.readWord (refAddr s next ref).toNat) = .next t) ∨
      ∃ a, refCheck s next ref accessBytes = .raise (faultClass ref) a ∧ t = s.raise (faultClass ref) a := by
  rcases admitted_next h with h | ⟨x, a, hc, ht⟩
  · exact .inl h
  · obtain rfl : x = faultClass ref := ((checkBytes_raise_iff _ _ _ _ _ _).mp hc).2.1
    exact .inr ⟨a, hc, ht⟩

/-- A next state after a store: the bytes were written outside the program, or the reference's exception was taken. -/
theorem storeRef_next {s t : State} {next : Word} {ref : Ref} {v : Word} {k : State → Result}
    (h : storeRef s next ref v k = .next t) :
    (refCheck s next ref accessBytes = .ok ∧ touchesCode s.params (refAddr s next ref).toNat accessBytes = false ∧
        k (s.setMem (s.mem.writeWord (refAddr s next ref).toNat v)) = .next t) ∨
      ∃ a, refCheck s next ref accessBytes = .raise (faultClass ref) a ∧ t = s.raise (faultClass ref) a := by
  rcases admitted_next h with ⟨hc, h⟩ | ⟨x, a, hc, ht⟩
  · split at h
    · simp at h
    · next hn => exact .inl ⟨hc, by simpa using hn, h⟩
  · obtain rfl : x = faultClass ref := ((checkBytes_raise_iff _ _ _ _ _ _).mp hc).2.1
    exact .inr ⟨a, hc, ht⟩

end Sys2Proof.Machine
end

