-- ==== Sys2Proof/Laws/Decode.lean ====
section
/-! SUPPORT. The building blocks of the round trips between decoder and encoder: the multi-byte fields, the ModRM and
SIB fields, the prefix and opcode bytes, each read back from what the encoder writes and written back from what the
decoder reads. -/

namespace Sys2Proof

/-! ### Multi-byte fields -/

@[simp] theorem leBytes_length (n : Nat) (v : BitVec (8 * n)) : (leBytes n v).length = n := by
  induction n with
  | zero => rfl
  | succ n ih => simp [leBytes, ih]

theorem extract_append_extract (n : Nat) (v : BitVec (8 * (n + 1))) :
    (v.extractLsb' 8 (8 * n) ++ v.extractLsb' 0 8 : BitVec (8 * n + 8)) = v := by
  ext i hi
  simp only [BitVec.getElem_append, BitVec.getElem_extractLsb']
  split
  · rw [Nat.zero_add]; exact BitVec.getLsbD_eq_getElem hi
  · rw [show 8 + (i - 8) = i by omega]; exact BitVec.getLsbD_eq_getElem hi

theorem extract_low_append (n : Nat) (hi : BitVec (8 * n)) (b : Byte) :
    BitVec.extractLsb' 0 8 (show BitVec (8 * (n + 1)) from hi ++ b) = b := by
  ext i h
  simp only [BitVec.getElem_extractLsb', BitVec.getLsbD_append, Nat.zero_add]
  rw [if_pos h]; exact BitVec.getLsbD_eq_getElem h

theorem extract_high_append (n : Nat) (hi : BitVec (8 * n)) (b : Byte) :
    BitVec.extractLsb' 8 (8 * n) (show BitVec (8 * (n + 1)) from hi ++ b) = hi := by
  ext i h
  simp only [BitVec.getElem_extractLsb', BitVec.getLsbD_append]
  rw [if_neg (by omega), show 8 + i - 8 = i by omega]; exact BitVec.getLsbD_eq_getElem h

/-- A value is read back from its bytes. -/
@[simp] theorem takeLE_leBytes (n : Nat) (v : BitVec (8 * n)) (rest : List Byte)
    (k : BitVec (8 * n) → List Byte → Decoded) : takeLE n (leBytes n v ++ rest) k = k v rest := by
  induction n with
  | zero =>
    simp only [takeLE, leBytes, List.nil_append]
    rw [show v = 0#0 from BitVec.eq_of_toNat_eq (by have := v.isLt; simpa using this)]
  | succ n ih =>
    simp only [takeLE, leBytes, List.cons_append, takeByte, ih]
    rw [extract_append_extract]

/-- Bytes that a field was read from are the field's bytes. -/
theorem takeLE_eq {n : Nat} {bs : List Byte} {k : BitVec (8 * n) → List Byte → Decoded} {d : Decoded}
    (h : takeLE n bs k = d) (hd : d ≠ .more) : ∃ v rest, bs = leBytes n v ++ rest ∧ k v rest = d := by
  induction n generalizing bs with
  | zero => exact ⟨0#0, bs, rfl, h⟩
  | succ n ih =>
    match bs with
    | [] => exact absurd h.symm hd
    | b :: bs =>
      obtain ⟨hi, rest, rfl, hk⟩ := ih (bs := bs) h
      refine ⟨hi ++ b, rest, ?_, hk⟩
      simp only [leBytes, List.cons_append]
      exact congrArg₂ _ (extract_low_append n hi b).symm
        (congrArg (fun v => leBytes n v ++ rest) (extract_high_append n hi b).symm)

/-- A field of `n` bytes asks for at most `n`. -/
theorem takeLE_more {n m : Nat} {bs : List Byte} {k : BitVec (8 * n) → List Byte → Decoded}
    (hk : ∀ v rest, k v rest = .more → rest.length < m) (h : takeLE n bs k = .more) : bs.length < n + m := by
  induction n generalizing bs with
  | zero => simpa using hk _ _ h
  | succ n ih =>
    match bs with
    | [] => simp only [List.length_nil]; omega
    | b :: bs =>
      have := ih (fun v rest => hk _ rest) h
      simp only [List.length_cons]; omega

/-! ### ModRM and SIB -/

@[simp] theorem packFields_hi (h : BitVec 2) (m l : BitVec 3) : (packFields h m l).extractLsb' 6 2 = h := by
  revert h m l; decide

@[simp] theorem packFields_mid (h : BitVec 2) (m l : BitVec 3) : (packFields h m l).extractLsb' 3 3 = m := by
  revert h m l; decide

@[simp] theorem packFields_lo (h : BitVec 2) (m l : BitVec 3) : (packFields h m l).extractLsb' 0 3 = l := by
  revert h m l; decide

theorem packFields_extract (b : Byte) :
    packFields (b.extractLsb' 6 2) (b.extractLsb' 3 3) (b.extractLsb' 0 3) = b := by
  revert b; decide

/-! ### Prefix bytes -/

@[simp] theorem prefixByte_segPrefix (g : Seg) : prefixByte (segPrefix g) = some (.seg g) := by cases g <;> rfl

@[simp] theorem prefixByte_67 : prefixByte 0x67#8 = some .a32 := rfl

@[simp] theorem prefixByte_encodeRex (x : Rex) : prefixByte (encodeRex x) = none := by
  rcases x with ⟨_ | _, _ | _, _ | _, _ | _⟩ <;> rfl

@[simp] theorem rexByte_encodeRex (x : Rex) : rexByte? (encodeRex x) = some x := by
  rcases x with ⟨_ | _, _ | _, _ | _, _ | _⟩ <;> rfl

theorem encodeRex_of_rexByte {b : Byte} {x : Rex} (h : rexByte? b = some x) : encodeRex x = b := by
  revert b; rcases x with ⟨_ | _, _ | _, _ | _, _ | _⟩ <;> decide

theorem segPrefix_of_prefixByte {b : Byte} {g : Seg} (h : prefixByte b = some (.seg g)) : segPrefix g = b := by
  revert b; cases g <;> decide

theorem byte_67_of_prefixByte {b : Byte} (h : prefixByte b = some .a32) : b = 0x67#8 := by
  revert b; decide

/-! ### Opcode bytes -/

@[simp] theorem opcode_movImm64 (rd : BitVec 3) : opcode? (opcodeRd 0x17#5 rd) = some (.movImm64 rd) := by
  revert rd; decide

@[simp] theorem opcode_push (rd : BitVec 3) : opcode? (opcodeRd 0x0A#5 rd) = some (.push rd) := by
  revert rd; decide

@[simp] theorem opcode_pop (rd : BitVec 3) : opcode? (opcodeRd 0x0B#5 rd) = some (.pop rd) := by
  revert rd; decide

@[simp] theorem opcode_lea : opcode? 0x8D#8 = some .lea := rfl
@[simp] theorem opcode_movLoadMoffs : opcode? 0xA1#8 = some .movLoadMoffs := rfl
@[simp] theorem opcode_movStoreMoffs : opcode? 0xA3#8 = some .movStoreMoffs := rfl
@[simp] theorem opcode_movLoad : opcode? 0x8B#8 = some .movLoad := rfl
@[simp] theorem opcode_movStore : opcode? 0x89#8 = some .movStore := rfl
@[simp] theorem opcode_jmpRel8 : opcode? 0xEB#8 = some .jmpRel8 := rfl

/-- The opcode byte of an opcode. -/
def opcodeByte : Opcode → Byte
  | .lea => 0x8D#8
  | .movImm64 rd => opcodeRd 0x17#5 rd
  | .movLoadMoffs => 0xA1#8
  | .movStoreMoffs => 0xA3#8
  | .movLoad => 0x8B#8
  | .movStore => 0x89#8
  | .push rd => opcodeRd 0x0A#5 rd
  | .pop rd => opcodeRd 0x0B#5 rd
  | .jmpRel8 => 0xEB#8

theorem opcodeByte_of_opcode {b : Byte} {o : Opcode} (h : opcode? b = some o) : opcodeByte o = b := by
  have key : ∀ b : Byte, (opcode? b).all (fun o => opcodeByte o == b) = true := by decide
  simpa [h] using key b

/-- No opcode byte of the subset is a legacy prefix or a REX byte. -/
theorem no_prefix_of_opcode {b : Byte} {o : Opcode} (h : opcode? b = some o) :
    prefixByte b = none ∧ rexByte? b = none := by
  have key : ∀ b : Byte, (opcode? b).isSome = true → prefixByte b = none ∧ rexByte? b = none := by decide
  exact key b (by simp [h])

end Sys2Proof
end

