-- ==== Sys2Proof/Laws/Exec.lean ====
section
/-! SUPPORT. What a meaning, the fetch and the step can do, each said once. -/

namespace Sys2Proof.Machine

/-- The state in which an instruction completes, its data reference admitted. -/
def completed (i : Instr) (s : State) : State :=
  let next := s.nextPc i
  match i with
  | .lea a32 rex reg m =>
    (s.setReg (regNum rex.r reg) (ea64 s next (memRef rex (asize64 a32) none m))).ipWrite (.ip64 next)
  | .movImm64 rex rd imm => (s.setReg (regNum rex.b rd) imm).ipWrite (.ip64 next)
  | .movLoadMoffs p _ off =>
    (s.setReg Reg.rax (s.mem.readWord (refAddr s next (moffsRef p off)).toNat)).ipWrite (.ip64 next)
  | .movStoreMoffs p _ off =>
    (s.setMem (s.mem.writeWord (refAddr s next (moffsRef p off)).toNat (s.reg Reg.rax))).ipWrite (.ip64 next)
  | .movLoad _ rex reg (.reg src) => (s.setReg (regNum rex.r reg) (s.reg (regNum rex.b src))).ipWrite (.ip64 next)
  | .movLoad p rex reg (.mem m) =>
    (s.setReg (regNum rex.r reg)
      (s.mem.readWord (refAddr s next (memRef rex (asize64 p.hasA32) p.ovr m)).toNat)).ipWrite (.ip64 next)
  | .movStore _ rex reg (.reg dst) => (s.setReg (regNum rex.b dst) (s.reg (regNum rex.r reg))).ipWrite (.ip64 next)
  | .movStore p rex reg (.mem m) =>
    (s.setMem (s.mem.writeWord (refAddr s next (memRef rex (asize64 p.hasA32) p.ovr m)).toNat
      (s.reg (regNum rex.r reg)))).ipWrite (.ip64 next)
  | .push rex rd =>
    let a := s.reg Reg.rsp - 8#64
    (((s.setMem (s.mem.writeWord (refAddr s next (stackRef a)).toNat
      (s.reg (regNum (rexB rex) rd)))).setReg Reg.rsp a).ipWrite (.ip64 next))
  | .pop rex rd =>
    let a := s.reg Reg.rsp
    (((s.setReg Reg.rsp (a + 8#64)).setReg (regNum (rexB rex) rd)
      (s.mem.readWord (refAddr s next (stackRef a)).toNat)).ipWrite (.ip64 next))
  | .jmpRel8 _ rel => s.ipWrite (.ip64 (next + rel.signExtend 64))

/-- Every meaning: in 64-bit mode, the checks of its data reference if it makes one, the store-to-code check if it
stores, then completion. -/
theorem exec_eq (i : Instr) (s : State) :
    exec i s = s.inMode64 (match dataRef s i with
      | none => .next (completed i s)
      | some ref => s.admitted (refCheck s (s.nextPc i) ref accessBytes)
          (if isStore i && touchesCode s.params (refAddr s (s.nextPc i) ref).toNat accessBytes then
              .refused .storeToCode
            else .next (completed i s))) := by
  cases i with
  | lea a32 rex reg m => rfl
  | movImm64 rex rd imm => rfl
  | movLoadMoffs p rex off => rfl
  | movStoreMoffs p rex off => rfl
  | movLoad p rex reg rm => cases rm <;> rfl
  | movStore p rex reg rm => cases rm <;> rfl
  | push rex rd => rfl
  | pop rex rd => rfl
  | jmpRel8 rex rel => rfl

/-- A next state of a meaning: the instruction completed, or its one data reference raised its exception. -/
theorem exec_next {i : Instr} {s t : State} (h : exec i s = .next t) :
    s.executes = true ∧
      ((t = completed i s ∧
          ∀ ref, dataRef s i = some ref → refCheck s (s.nextPc i) ref accessBytes = .ok ∧
            (isStore i = true → touchesCode s.params (refAddr s (s.nextPc i) ref).toNat accessBytes = false)) ∨
        ∃ ref a, dataRef s i = some ref ∧ refCheck s (s.nextPc i) ref accessBytes = .raise (faultClass ref) a ∧
          t = s.raise (faultClass ref) a) := by
  rw [exec_eq] at h
  obtain ⟨he, h⟩ := inMode64_next h
  refine ⟨he, ?_⟩
  cases hd : dataRef s i with
  | none =>
    rw [hd] at h
    simp only [Host.Outcome.next.injEq] at h
    exact .inl ⟨h.symm, fun ref hr => by simp at hr⟩
  | some ref =>
    rw [hd] at h
    rcases admitted_next h with ⟨hc, hk⟩ | ⟨x, a, hc, ht⟩
    · split at hk
      · simp at hk
      · next hn =>
        simp only [Host.Outcome.next.injEq] at hk
        refine .inl ⟨hk.symm, fun r hr => ?_⟩
        obtain rfl : ref = r := by simpa using hr
        exact ⟨hc, fun hs => by simpa [hs] using hn⟩
    · obtain rfl : x = faultClass ref := ((checkBytes_raise_iff _ _ _ _ _ _).mp hc).2.1
      exact .inr ⟨ref, a, rfl, hc, ht⟩

/-- Completion, from the checks. -/
theorem exec_completes {i : Instr} {s : State} (he : s.executes = true)
    (hr : ∀ ref, dataRef s i = some ref → refCheck s (s.nextPc i) ref accessBytes = .ok ∧
      (isStore i = true → touchesCode s.params (refAddr s (s.nextPc i) ref).toNat accessBytes = false)) :
    exec i s = .next (completed i s) := by
  rw [exec_eq, inMode64_of_executes he]
  cases hd : dataRef s i with
  | none => rfl
  | some ref =>
    obtain ⟨hc, hs⟩ := hr ref hd
    simp only [hc, State.admitted]
    rw [if_neg]
    cases hst : isStore i with
    | false => simp
    | true => simp [hs hst]

/-- Completion writes the general registers, `pc` and memory at most. -/
theorem completed_sameControl (i : Instr) (s : State) : SameControl s (completed i s) := by
  cases i with
  | movLoad p rex reg rm => cases rm <;> constructor <;> rfl
  | movStore p rex reg rm => cases rm <;> constructor <;> rfl
  | _ => constructor <;> rfl

/-! ### The fetch and the step -/

/-- The bytes fetched so far and one more that passes the check of R97 stand at `pc`. -/
theorem holds_append {s : State} {got : List Byte} (h : s.Holds got)
    (hc : checkBytes s.params .gp (s.pc.toNat + got.length) 1 = .ok) :
    s.Holds (got ++ [s.mem.readByte (s.pc.toNat + got.length)]) := by
  intro k hk
  rw [List.length_append, List.length_singleton] at hk
  obtain hlt | rfl : k < got.length ∨ k = got.length := by omega
  · rw [List.getElem_append_left hlt]
    exact h k hlt
  · obtain ⟨hw, hb⟩ := (checkBytes_ok_iff _ _ _ _).mp hc
    exact ⟨⟨by omega, hb 0 (by omega)⟩, by simp⟩

/-- A next state after a fetch: bytes that stand at `pc` decoded to an instruction, which answered it, or a fetch byte
raised #GP. -/
theorem fetchFrom_next {s t : State} {k : Instr → Result} (fuel : Nat) (got : List Byte) (hg : s.Holds got)
    (h : fetchFrom s k fuel got = .next t) :
    (∃ bs i rest, s.Holds bs ∧ decode bs = .ok i rest ∧ k i = .next t) ∨ ∃ a, t = s.raise .gp a := by
  induction fuel generalizing got with
  | zero => simp [fetchFrom] at h
  | succ fuel ih =>
    unfold fetchFrom at h
    split at h
    · next i rest hd => exact .inl ⟨got, i, rest, hg, hd, h⟩
    · simp at h
    · rcases admitted_next h with ⟨hc, h⟩ | ⟨x, a, hc, ht⟩
      · exact ih _ (holds_append hg hc) h
      · obtain rfl : x = .gp := ((checkBytes_raise_iff _ _ _ _ _ _).mp hc).2.1
        exact .inr ⟨a, ht⟩

/-- A running state's step is its fetch (42_named_instructions.md R99). -/
theorem step_of_running {s : State} (h : s.Running) : step s = fetch s fun i => exec i s := by
  simp [step, whenRunning, h.noFault, inMode64_of_executes h.executes, h.notFinal, h.canonicalPc, h.inProgram]

/-- A next state of a step: `pc` was not canonical, a fetch byte raised #GP, or bytes that stand at `pc` decoded to an
instruction, which answered it. -/
theorem step_next {s t : State} (h : step s = .next t) :
    s.fault = .none ∧ s.executes = true ∧
      ((∃ a, t = s.raise .gp a) ∨
        s.Running ∧ ∃ bs i rest, s.Holds bs ∧ decode bs = .ok i rest ∧ exec i s = .next t) := by
  unfold step whenRunning at h
  split at h
  · simp at h
  · next hf =>
    have hf : s.fault = .none := by simpa using hf
    obtain ⟨he, h⟩ := inMode64_next h
    refine ⟨hf, he, ?_⟩
    split at h
    · simp at h
    · next hfin =>
      split at h
      · simp only [Host.Outcome.next.injEq] at h
        exact .inl ⟨_, h.symm⟩
      · next hc =>
        split at h
        · simp at h
        · next hin =>
          rcases fetchFrom_next _ _ (fun k hk => absurd hk (by simp)) h with hk | ha
          · exact .inr ⟨⟨hf, he, hfin, by simpa using hc, by simpa using hin⟩, hk⟩
          · exact .inl ha

end Sys2Proof.Machine
end

