-- ==== Sys2Proof/Laws/Memory.lean ====
section
/-! SUPPORT. Memory: a byte read after a write, the bytes of an access, and the one form that every write keeps. -/

namespace Sys2Proof.Machine

/-! ### One byte -/

theorem lookupCell_insertCell (c : Host.Cell) (cs : List Host.Cell) (h : ∀ d ∈ cs, d.1 ≠ c.1) (b : Nat) :
    lookupCell b (insertCell c cs) = if c.1 = b then c.2 else lookupCell b cs := by
  induction cs with
  | nil => rfl
  | cons d ds ih =>
    have hd : d.1 ≠ c.1 := h d (by simp)
    have ih := ih fun e he => h e (by simp [he])
    unfold insertCell
    split
    · rfl
    · simp only [lookupCell, ih]
      by_cases hb : c.1 = b
      · simp [hb, show d.1 ≠ b from hb ▸ hd]
      · simp [hb]

theorem lookupCell_filter (a b : Nat) (cs : List Host.Cell) :
    lookupCell b (cs.filter fun c => c.1 != a) = if a = b then Memory.unlisted else lookupCell b cs := by
  induction cs with
  | nil => simp [lookupCell]
  | cons d ds ih =>
    by_cases hd : d.1 = a
    · rw [List.filter_cons_of_neg (by simp [hd]), ih]
      by_cases hb : a = b
      · simp [hb]
      · simp [hb, lookupCell, hd]
    · rw [List.filter_cons_of_pos (by simp [hd])]
      simp only [lookupCell, ih]
      by_cases hb : a = b
      · subst hb; simp [hd]
      · simp [hb]

/-- A byte read after a byte written, for any cells. -/
theorem readByte_writeByte (m : Memory) (a b : Nat) (v : Byte) :
    (m.writeByte a v).readByte b = if a = b then v else m.readByte b := by
  have hf : ∀ d ∈ m.cells.filter (fun c => c.1 != a), d.1 ≠ a := by
    intro d hd; simpa using (List.mem_filter.mp hd).2
  unfold Memory.readByte Memory.writeByte
  by_cases hv : v = Memory.unlisted
  · simp only [hv, if_true, lookupCell_filter]
  · simp only [hv, if_false, lookupCell_insertCell (a, v) _ hf, lookupCell_filter]
    split <;> rfl

/-! ### Accesses of several bytes -/

/-- A write leaves every byte below it as it was. -/
theorem readByte_write_below (n : Nat) (m : Memory) (a b : Nat) (v : BitVec (8 * n)) (h : b < a) :
    (m.write a n v).readByte b = m.readByte b := by
  induction n generalizing m a with
  | zero => rfl
  | succ n ih => rw [Memory.write, ih _ _ _ (by omega), readByte_writeByte, if_neg (by omega)]

/-- A write leaves every byte above it as it was. -/
theorem readByte_write_above (n : Nat) (m : Memory) (a b : Nat) (v : BitVec (8 * n)) (h : a + n ≤ b) :
    (m.write a n v).readByte b = m.readByte b := by
  induction n generalizing m a with
  | zero => rfl
  | succ n ih => rw [Memory.write, ih _ _ _ (by omega), readByte_writeByte, if_neg (by omega)]

/-- Byte `k` of a write holds bits `8k+7 : 8k` of the value. -/
theorem readByte_write (n : Nat) (m : Memory) (a k : Nat) (v : BitVec (8 * n)) (h : k < n) :
    (m.write a n v).readByte (a + k) = v.extractLsb' (8 * k) 8 := by
  induction n generalizing m a k with
  | zero => omega
  | succ n ih =>
    rw [Memory.write]
    match k with
    | 0 => simp [readByte_write_below n _ (a + 1) a _ (by omega), readByte_writeByte]
    | k + 1 =>
      rw [show a + (k + 1) = a + 1 + k by omega, ih _ _ _ _ (by omega)]
      ext i hi
      simp only [BitVec.getElem_extractLsb', BitVec.getLsbD_extractLsb']
      rw [decide_eq_true (by omega), Bool.true_and]
      congr 1; omega

/-- Two memories with the same bytes at an access read the same value. -/
theorem read_congr (n : Nat) (m m' : Memory) (a b : Nat)
    (h : ∀ k < n, m.readByte (a + k) = m'.readByte (b + k)) : m.read a n = m'.read b n := by
  induction n generalizing a b with
  | zero => rfl
  | succ n ih =>
    have h0 : m.readByte a = m'.readByte b := h 0 (by omega)
    rw [Memory.read, Memory.read, ih (a + 1) (b + 1) fun k hk => ?_, h0]
    simpa [Nat.add_assoc, Nat.add_comm 1 k] using h (k + 1) (by omega)

/-- Bits `8k+7 : 8k` of a read are byte `k`. -/
theorem extract_read (n : Nat) (m : Memory) (a k : Nat) (h : k < n) :
    (m.read a n).extractLsb' (8 * k) 8 = m.readByte (a + k) := by
  induction n generalizing a k with
  | zero => omega
  | succ n ih =>
    rw [Memory.read]
    match k with
    | 0 =>
      ext i hi
      simp only [BitVec.getElem_extractLsb', BitVec.getLsbD_append]
      simp [hi]
    | k + 1 =>
      rw [show a + (k + 1) = a + 1 + k by omega, ← ih (a + 1) k (by omega)]
      ext i hi
      simp only [BitVec.getElem_extractLsb', BitVec.getLsbD_append]
      rw [if_neg (by omega)]
      congr 1; omega

/-! ### Eight bytes -/

theorem readByte_writeWord (m : Memory) (a k : Nat) (v : Word) (h : k < 8) :
    (m.writeWord a v).readByte (a + k) = v.extractLsb' (8 * k) 8 := readByte_write 8 m a k v h

theorem readByte_writeWord_other (m : Memory) (a b : Nat) (v : Word) (h : b < a ∨ a + 8 ≤ b) :
    (m.writeWord a v).readByte b = m.readByte b :=
  h.elim (fun h => readByte_write_below 8 m a b v h) fun h => readByte_write_above 8 m a b v h

theorem extract_readWord (m : Memory) (a k : Nat) (h : k < 8) :
    (m.readWord a).extractLsb' (8 * k) 8 = m.readByte (a + k) := extract_read 8 m a k h

theorem readWord_congr (m m' : Memory) (a b : Nat) (h : ∀ k < 8, m.readByte (a + k) = m'.readByte (b + k)) :
    m.readWord a = m'.readWord b := read_congr 8 m m' a b h

/-! ### The one form is kept -/

theorem mem_insertCell (c d : Host.Cell) (cs : List Host.Cell) : d ∈ insertCell c cs ↔ d = c ∨ d ∈ cs := by
  induction cs with
  | nil => simp [insertCell]
  | cons e es ih =>
    unfold insertCell
    split
    · simp
    · simp only [List.mem_cons, ih]; tauto

theorem pairwise_insertCell (c : Host.Cell) (cs : List Host.Cell) (h : cs.Pairwise fun x y => x.1 < y.1)
    (hc : ∀ d ∈ cs, d.1 ≠ c.1) : (insertCell c cs).Pairwise fun x y => x.1 < y.1 := by
  induction cs with
  | nil => simp [insertCell]
  | cons e es ih =>
    have he := List.pairwise_cons.mp h
    unfold insertCell
    split
    · next hlt =>
      refine List.pairwise_cons.mpr ⟨fun d hd => ?_, h⟩
      rcases List.mem_cons.mp hd with rfl | hd
      · exact hlt
      · exact hlt.trans (he.1 d hd)
    · next hge =>
      refine List.pairwise_cons.mpr ⟨fun d hd => ?_, ih he.2 fun d hd => hc d (by simp [hd])⟩
      rcases (mem_insertCell c d es).mp hd with rfl | hd
      · have := hc e (by simp); omega
      · exact he.1 d hd

/-- A cell after a byte is written is the cell written or one of the old cells. -/
theorem mem_writeByte (m : Memory) (a : Nat) (v : Byte) (c : Host.Cell) (h : c ∈ (m.writeByte a v).cells) :
    (c = (a, v) ∧ v ≠ Memory.unlisted) ∨ c ∈ m.cells := by
  unfold Memory.writeByte at h
  by_cases hv : v = Memory.unlisted
  · simp only [hv, if_true] at h
    exact .inr (List.mem_filter.mp h).1
  · simp only [hv, if_false] at h
    rcases (mem_insertCell _ _ _).mp h with rfl | h
    · exact .inl ⟨rfl, hv⟩
    · exact .inr (List.mem_filter.mp h).1

/-- Writing a byte keeps the one form of memory. -/
theorem writeByte_wf (m : Memory) (a : Nat) (v : Byte) (ha : a < addressSpace) (h : m.wf) : (m.writeByte a v).wf := by
  constructor
  · unfold Memory.writeByte
    have hp := h.1.filter fun c : Host.Cell => c.1 != a
    by_cases hv : v = Memory.unlisted
    · simpa only [hv, if_true] using hp
    · simp only [hv, if_false]
      exact pairwise_insertCell _ _ hp fun d hd => by simpa using (List.mem_filter.mp hd).2
  · intro c hc
    rcases mem_writeByte m a v c hc with ⟨rfl, hv⟩ | hc
    · exact ⟨hv, ha⟩
    · exact h.2 c hc

/-- A write of several bytes keeps the one form of memory. -/
theorem write_wf (n : Nat) (m : Memory) (a : Nat) (v : BitVec (8 * n)) (ha : a + n ≤ addressSpace) (h : m.wf) :
    (m.write a n v).wf := by
  induction n generalizing m a with
  | zero => exact h
  | succ n ih => exact ih _ _ _ (by omega) (writeByte_wf m a _ (by omega) h)

theorem writeWord_wf (m : Memory) (a : Nat) (v : Word) (ha : a + 8 ≤ addressSpace) (h : m.wf) : (m.writeWord a v).wf :=
  write_wf 8 m a v ha h

/-- Loading bytes keeps the one form of memory. -/
theorem load_wf (bs : List Byte) (m : Memory) (a : Nat) (ha : a + bs.length ≤ addressSpace) (h : m.wf) :
    (m.load a bs).wf := by
  induction bs generalizing m a with
  | nil => exact h
  | cons b bs ih =>
    simp only [List.length_cons] at ha
    exact ih _ _ (by omega) (writeByte_wf m a b (by omega) h)

/-- A cell after a write is an old cell or lies in the bytes written. -/
theorem mem_write (n : Nat) (m : Memory) (a : Nat) (v : BitVec (8 * n)) (c : Host.Cell)
    (h : c ∈ (m.write a n v).cells) : c ∈ m.cells ∨ ∃ k < n, c.1 = a + k := by
  induction n generalizing m a with
  | zero => exact .inl h
  | succ n ih =>
    rcases ih _ _ _ h with h | ⟨k, hk, he⟩
    · rcases mem_writeByte m a _ c h with ⟨rfl, -⟩ | h
      · exact .inr ⟨0, by omega, rfl⟩
      · exact .inl h
    · exact .inr ⟨k + 1, by omega, by omega⟩

theorem mem_writeWord (m : Memory) (a : Nat) (v : Word) (c : Host.Cell) (h : c ∈ (m.writeWord a v).cells) :
    c ∈ m.cells ∨ ∃ k < 8, c.1 = a + k := mem_write 8 m a v c h

/-- The reset memory has the one form. -/
theorem reset_mem_wf : State.reset.mem.wf := by decide

end Sys2Proof.Machine
end

