-- ==== Sys2Proof/Laws/Modes.lean ====
section
/-! SUPPORT. Small lemmas about the modes, the segments and the mappings. -/

namespace Sys2Proof.Machine

/-- The offset of a far pointer is below `2^32` (20_memory.md R42). -/
theorem FarPointer.offset_lt (fp : FarPointer) : fp.offset < 2 ^ 32 := by
  cases fp with
  | far32 sel off => exact off.isLt
  | far16 sel off => exact off.isLt.trans (by decide)

@[simp] theorem offsetInSegment_real (off : Nat) : offsetInSegment .realAddress off = decide (off < 2 ^ 16) := rfl
@[simp] theorem offsetInSegment_segmented (off : Nat) : offsetInSegment .segmented off = decide (off < 2 ^ 32) := rfl

/-- The linear addresses of the modes outside 64-bit mode (20_memory.md R26, R30, R45). -/
@[simp] theorem inLinearSpace_realAddress (p : Params) (a : Nat) :
    inLinearSpace p .realAddress a = some (decide (a < 2 ^ 20)) := rfl
@[simp] theorem inLinearSpace_virtual8086 (p : Params) (a : Nat) :
    inLinearSpace p .virtual8086 a = some (decide (a < 2 ^ 20)) := rfl
@[simp] theorem inLinearSpace_protectedMode (p : Params) (a : Nat) :
    inLinearSpace p .protectedMode a = some (decide (a < 2 ^ 32)) := rfl
@[simp] theorem inLinearSpace_compatibility (p : Params) (a : Nat) :
    inLinearSpace p .compatibility a = some (decide (a < 2 ^ 32)) := rfl

@[simp] theorem mapping_mode64 (paging pae : Bool) : mapping .mode64 paging pae = some .paePaging := rfl
@[simp] theorem mapping_smm (paging pae : Bool) : mapping .smm paging pae = none := rfl

end Sys2Proof.Machine
end

