-- ==== Sys2Proof/Laws/PerInstr.lean ====
section
/-! SUPPORT. Families of statements about the instructions as syntax, one lemma per constructor. -/

namespace Sys2Proof.Laws

theorem encodeLegacy_length (p : Legacy) : (encodeLegacy p).length ≤ if p.hasA32 then 2 else 1 := by
  cases p <;> simp [encodeLegacy, Legacy.hasA32]

theorem encodeMem_length (reg : BitVec 3) (m : MemOperand) : (encodeMem reg m).length ≤ 6 := by
  rcases m with ⟨rm, _ | _ | _⟩ | _ | ⟨sc, i, b, _ | _ | _⟩ | _ <;> simp [encodeMem, dispBytes, leBytes_length]

theorem encodeRegMem_length (reg : BitVec 3) (rm : RegMem) : (encodeRegMem reg rm).length ≤ 6 := by
  cases rm with
  | reg r => simp [encodeRegMem]
  | mem m => exact encodeMem_length reg m

theorem encodeMoffs_length (p : Legacy) (off : Moffs) (h : off.wf p = true) :
    (encodeMoffs off).length ≤ if p.hasA32 then 4 else 8 := by
  cases off <;> simp_all [Moffs.wf, encodeMoffs, leBytes_length]

theorem encodeRex?_length (rex : Option Rex) : (encodeRex? rex).length ≤ 1 := by
  cases rex <;> simp [encodeRex?]

/-- A well-formed instruction has at least one byte and at most the eleven of the longest (30_encoding.md R60). -/
def Sized.Statement (i : Instr) : Prop := i.WellFormed → 1 ≤ instrLength i ∧ instrLength i ≤ maxLength

theorem Sized.lea (a32 : Bool) (rex : Rex) (reg : BitVec 3) (m : MemOperand) :
    Sized.Statement (.lea a32 rex reg m) := by
  intro _
  have := encodeMem_length reg m
  cases a32 <;> simp [instrLength, encode, maxLength] <;> omega

theorem Sized.movImm64 (rex : Rex) (rd : BitVec 3) (imm : BitVec 64) : Sized.Statement (.movImm64 rex rd imm) := by
  intro _
  simp [instrLength, encode, maxLength, leBytes_length]

theorem Sized.movLoadMoffs (p : Legacy) (rex : Rex) (off : Moffs) : Sized.Statement (.movLoadMoffs p rex off) := by
  intro h
  have h1 := encodeLegacy_length p
  have h2 := encodeMoffs_length p off (Bool.and_eq_true_iff.mp h).2
  simp only [instrLength, encode, maxLength, List.length_append, List.length_cons]
  split at h1 <;> split at h2 <;> simp_all <;> omega

theorem Sized.movStoreMoffs (p : Legacy) (rex : Rex) (off : Moffs) : Sized.Statement (.movStoreMoffs p rex off) := by
  intro h
  have h1 := encodeLegacy_length p
  have h2 := encodeMoffs_length p off (Bool.and_eq_true_iff.mp h).2
  simp only [instrLength, encode, maxLength, List.length_append, List.length_cons]
  split at h1 <;> split at h2 <;> simp_all <;> omega

theorem Sized.movLoad (p : Legacy) (rex : Rex) (reg : BitVec 3) (rm : RegMem) :
    Sized.Statement (.movLoad p rex reg rm) := by
  intro _
  have h1 := encodeLegacy_length p
  have h2 := encodeRegMem_length reg rm
  simp only [instrLength, encode, maxLength, List.length_append, List.length_cons]
  split at h1 <;> omega

theorem Sized.movStore (p : Legacy) (rex : Rex) (reg : BitVec 3) (rm : RegMem) :
    Sized.Statement (.movStore p rex reg rm) := by
  intro _
  have h1 := encodeLegacy_length p
  have h2 := encodeRegMem_length reg rm
  simp only [instrLength, encode, maxLength, List.length_append, List.length_cons]
  split at h1 <;> omega

theorem Sized.push (rex : Option Rex) (rd : BitVec 3) : Sized.Statement (.push rex rd) := by
  intro _
  have := encodeRex?_length rex
  simp [instrLength, encode, maxLength]; omega

theorem Sized.pop (rex : Option Rex) (rd : BitVec 3) : Sized.Statement (.pop rex rd) := by
  intro _
  have := encodeRex?_length rex
  simp [instrLength, encode, maxLength]; omega

theorem Sized.jmpRel8 (rex : Option Rex) (rel : BitVec 8) : Sized.Statement (.jmpRel8 rex rel) := by
  intro _
  have := encodeRex?_length rex
  simp [instrLength, encode, maxLength, leBytes_length]; omega

end Sys2Proof.Laws
end

