-- ==== Sys2Proof/Machine/Asm.lean ====
section
/-! DEFINITION. The assembler syntax of 30_encoding.md R71: upper-case names, hexadecimal numerals with a trailing `H`,
destination first, `seg:[base + index*scale + disp]`, 32-bit register names inside the brackets under `67H`. No step
reads it; it is the name a reader gives an instruction. -/

namespace Sys2Proof.Machine

/-- The 64-bit register names (10_state.md R12). -/
def regNames : List String :=
  ["RAX", "RCX", "RDX", "RBX", "RSP", "RBP", "RSI", "RDI", "R8", "R9", "R10", "R11", "R12", "R13", "R14", "R15"]

/-- The names of the low 32 bits of registers 0 to 7 (R12); the spec names none for 8 to 15, which keep theirs. -/
def reg32Names : List String :=
  ["EAX", "ECX", "EDX", "EBX", "ESP", "EBP", "ESI", "EDI", "R8", "R9", "R10", "R11", "R12", "R13", "R14", "R15"]

/-- A register's name at the address size of the instruction (R71). -/
def regName (a32 : Bool) (r : Reg) : String := (if a32 then reg32Names else regNames).getD r.toNat ""

/-- One hexadecimal digit. -/
def hexDigit (d : Nat) : String :=
  ["0", "1", "2", "3", "4", "5", "6", "7", "8", "9", "A", "B", "C", "D", "E", "F"].getD (d % 16) ""

/-- The low `n` hexadecimal digits of a number. -/
def hexDigits : Nat → Nat → String
  | 0, _ => ""
  | n + 1, v => hexDigits n (v / 16) ++ hexDigit v

/-- A numeral of `n` digits with its trailing `H`. -/
def hex (n v : Nat) : String := hexDigits n v ++ "H"

/-- A segment override before the brackets (R71). -/
def segText : Option Seg → String
  | none => ""
  | some .es => "ES:"
  | some .cs => "CS:"
  | some .ss => "SS:"
  | some .ds => "DS:"
  | some .fs => "FS:"
  | some .gs => "GS:"

/-- A displacement as a signed term after the other parts. -/
def dispText : Disp → String
  | .none => ""
  | .d8 v => if v.msb then " - " ++ hex 2 (-v).toNat else " + " ++ hex 2 v.toNat
  | .d32 v => if v.msb then " - " ++ hex 8 (-v).toNat else " + " ++ hex 8 v.toNat

/-- The index term of a SIB byte, if it has one. -/
def indexText (a32 x : Bool) (index : BitVec 3) (sc : BitVec 2) : Option String :=
  (indexReg x index).map fun r => regName a32 r ++ "*" ++ hexDigit (scaleOf sc).factor.toNat

/-- A memory operand (R71). -/
def memText (a32 : Bool) (rex : Rex) (ovr : Option Seg) (m : MemOperand) : String :=
  segText ovr ++ "[" ++
    (match m with
    | .base rm d => regName a32 (regNum rex.b rm) ++ dispText d
    | .ripRel d => "RIP" ++ dispText (.d32 d)
    | .sib sc i b d =>
      regName a32 (regNum rex.b b) ++
        (match indexText a32 rex.x i sc with
        | some t => " + " ++ t
        | none => "") ++ dispText d
    | .sibNoBase sc i d =>
      match indexText a32 rex.x i sc with
      | some t => t ++ dispText (.d32 d)
      | none => hex 8 d.toNat) ++ "]"

/-- A register or memory operand. -/
def regMemText (p : Legacy) (rex : Rex) : RegMem → String
  | .reg rm => regName false (regNum rex.b rm)
  | .mem m => memText p.hasA32 rex p.ovr m

/-- A memory offset of its 16 or 8 digits. -/
def moffsText (p : Legacy) : Moffs → String
  | .m64 v => segText p.ovr ++ "[" ++ hex 16 v.toNat ++ "]"
  | .m32 v => segText p.ovr ++ "[" ++ hex 8 v.toNat ++ "]"

/-- An instruction in the spec's syntax (R71). -/
def asm : Instr → String
  | .lea a32 rex reg m => "LEA " ++ regName false (regNum rex.r reg) ++ ", " ++ memText a32 rex none m
  | .movImm64 rex rd v => "MOV " ++ regName false (regNum rex.b rd) ++ ", " ++ hex 16 v.toNat
  | .movLoadMoffs p _ off => "MOV RAX, " ++ moffsText p off
  | .movStoreMoffs p _ off => "MOV " ++ moffsText p off ++ ", RAX"
  | .movLoad p rex reg rm => "MOV " ++ regName false (regNum rex.r reg) ++ ", " ++ regMemText p rex rm
  | .movStore p rex reg rm => "MOV " ++ regMemText p rex rm ++ ", " ++ regName false (regNum rex.r reg)
  | .push rex rd => "PUSH " ++ regName false (regNum (rexB rex) rd)
  | .pop rex rd => "POP " ++ regName false (regNum (rexB rex) rd)
  | .jmpRel8 _ v => "JMP " ++ (if v.msb then "-" ++ hex 2 (-v).toNat else "+" ++ hex 2 v.toNat)

end Sys2Proof.Machine
end

