-- ==== Sys2Proof/Machine/Flags.lean ====
section
/-! DEFINITION. Flag computations: there are none. The document names no flag and no condition code, the model has no
flags register, and no admitted form reads or writes one (10_state.md R21; the **Flags** line of every rule of
42_named_instructions.md; 40_address_calculation.md R86 point 6). -/
end

