-- ==== Sys2Proof/Tests/Slice0.lean ====
section
/-! SUPPORT. Small tests. Expected values are those of 95_test_vectors.md, named by their vector numbers, or words
written out by hand from 30_encoding.md. After them, for each statement of Certificates/Slice0/Obligations.lean that
has hypotheses, a witness that meets them. -/

namespace Sys2Proof.Tests

open Sys2Proof Sys2Proof.Machine

/-! ### WellFormed: one ill-formed term for each check -/

/-- The REX prefixes used below: `48H`, `49H`, `4CH`, and one with W = 0. -/
def rexW : Rex := ⟨true, false, false, false⟩
def rexWB : Rex := ⟨true, false, false, true⟩
def rexWR : Rex := ⟨true, true, false, false⟩
def rex0 : Rex := ⟨false, false, false, false⟩

theorem test_wf_lea_needs_w : (Instr.lea false rex0 0#3 (.base 0#3 .none)).wf = false := by decide
theorem test_wf_movImm64_needs_w : (Instr.movImm64 rex0 0#3 0#64).wf = false := by decide
theorem test_wf_movLoadMoffs_needs_w : (Instr.movLoadMoffs .none rex0 (.m64 0#64)).wf = false := by decide
theorem test_wf_movStoreMoffs_needs_w : (Instr.movStoreMoffs .none rex0 (.m64 0#64)).wf = false := by decide
theorem test_wf_movLoad_needs_w : (Instr.movLoad .none rex0 0#3 (.reg 0#3)).wf = false := by decide
theorem test_wf_movStore_needs_w : (Instr.movStore .none rex0 0#3 (.reg 0#3)).wf = false := by decide
theorem test_wf_rm_100_needs_sib : (Instr.lea false rexW 0#3 (.base 4#3 (.d8 0#8))).wf = false := by decide
theorem test_wf_rm_101_needs_disp : (Instr.lea false rexW 0#3 (.base 5#3 .none)).wf = false := by decide
theorem test_wf_sib_101_needs_disp : (Instr.lea false rexW 0#3 (.sib 0#2 0#3 5#3 .none)).wf = false := by decide
theorem test_wf_register_form_takes_no_prefix : (Instr.movLoad .a32 rexW 0#3 (.reg 0#3)).wf = false := by decide
theorem test_wf_long_offset_without_67 : (Instr.movLoadMoffs .a32 rexW (.m64 0#64)).wf = false := by decide
theorem test_wf_short_offset_with_67 : (Instr.movStoreMoffs .none rexW (.m32 0#32)).wf = false := by decide

/-! ### Decoding, V6.1 to V6.18 -/

theorem test_decode_v6_1 : decode [0x48#8, 0x8D#8, 0x58#8, 0x20#8] =
    .ok (.lea false rexW 3#3 (.base 0#3 (.d8 0x20#8))) [] := by decide
theorem test_decode_v6_3 : decode [0x48#8, 0x8D#8, 0x54#8, 0x8B#8, 0xF8#8] =
    .ok (.lea false rexW 2#3 (.sib 2#2 1#3 3#3 (.d8 0xF8#8))) [] := by decide
theorem test_decode_v6_4 : decode [0x4C#8, 0x8D#8, 0x3C#8, 0x25#8, 0#8, 0x20#8, 0#8, 0#8] =
    .ok (.lea false rexWR 7#3 (.sibNoBase 0#2 4#3 0x2000#32)) [] := by decide
theorem test_decode_v6_5 : decode [0x48#8, 0xB8#8, 0x88#8, 0x77#8, 0x66#8, 0x55#8, 0x44#8, 0x33#8, 0x22#8, 0x11#8] =
    .ok (.movImm64 rexW 0#3 0x1122334455667788#64) [] := by decide
theorem test_decode_v6_7 : decode [0x48#8, 0xA1#8, 0#8, 0x20#8, 0#8, 0#8, 0#8, 0#8, 0#8, 0#8] =
    .ok (.movLoadMoffs .none rexW (.m64 0x2000#64)) [] := by decide
theorem test_decode_v6_8 : decode [0x67#8, 0x48#8, 0xA1#8, 0#8, 0x20#8, 0#8, 0#8] =
    .ok (.movLoadMoffs .a32 rexW (.m32 0x2000#32)) [] := by decide
theorem test_decode_v6_9 : decode [0x65#8, 0x48#8, 0xA3#8, 0#8, 0x20#8, 0#8, 0#8, 0#8, 0#8, 0#8, 0#8] =
    .ok (.movStoreMoffs (.seg .gs) rexW (.m64 0x2000#64)) [] := by decide
theorem test_decode_v6_10 : decode [0x48#8, 0x8B#8, 0x0C#8, 0x25#8, 0#8, 0x20#8, 0#8, 0#8] =
    .ok (.movLoad .none rexW 1#3 (.mem (.sibNoBase 0#2 4#3 0x2000#32))) [] := by decide
theorem test_decode_v6_14 : decode [0x48#8, 0x89#8, 0x84#8, 0x24#8, 0#8, 1#8, 0#8, 0#8] =
    .ok (.movStore .none rexW 0#3 (.mem (.sib 0#2 4#3 4#3 (.d32 0x100#32)))) [] := by decide
theorem test_decode_v6_16 : decode [0x41#8, 0x50#8] = .ok (.push (some ⟨false, false, false, true⟩) 0#3) [] := by
  decide
theorem test_decode_v6_17 : decode [0x5C#8] = .ok (.pop none 4#3) [] := by decide
theorem test_decode_v6_18 : decode [0xEB#8, 0xFE#8] = .ok (.jmpRel8 none 0xFE#8) [] := by decide

/-- The bits of V6.15, `48H` with W and X, opcode, ModRM `00 000 100`, SIB `00 100 000`, written out one by one. -/
theorem test_decode_v6_15_bits :
    decode [0b01001010#8, 0b10001011#8, 0b00000100#8, 0b00100000#8] =
      .ok (.movLoad .none ⟨true, false, true, false⟩ 0#3 (.mem (.sib 0#2 4#3 0#3 .none))) [] := by decide
theorem test_ref_v6_15 : memRef ⟨true, false, true, false⟩ .a64 none (.sib 0#2 4#3 0#3 .none) =
    ⟨.a64, .reg 0#4, some 12#4, .x1, 0#64, none, false⟩ := by decide
theorem test_ref_v6_3 : memRef rexW .a64 none (.sib 2#2 1#3 3#3 (.d8 0xF8#8)) =
    ⟨.a64, .reg 3#4, some 1#4, .x4, 0xFFFFFFFFFFFFFFF8#64, none, false⟩ := by decide

/-! ### Refused byte sequences, V6.19 to V6.33 -/

theorem test_refuse_operand_size_32 :
    decode [0x8B#8, 3#8] = .refuse .operandSize32 ∧ decode [0x8D#8, 0x58#8, 0x20#8] = .refuse .operandSize32 ∧
      decode [0xB8#8, 1#8, 0#8, 0#8, 0#8] = .refuse .operandSize32 := by decide
theorem test_refuse_lea_register : decode [0x48#8, 0x8D#8, 0xC0#8] = .refuse .leaRegisterOperand := by decide
theorem test_refuse_prefix :
    decode [0x66#8, 0x48#8, 0x8B#8, 3#8] = .refuse .prefixNotAdmitted ∧
      decode [0xF0#8, 0x48#8, 0x89#8, 3#8] = .refuse .prefixNotAdmitted ∧
      decode [0x64#8, 0x64#8, 0x48#8, 0x8B#8, 3#8] = .refuse .prefixNotAdmitted ∧
      decode [0x64#8, 0x65#8, 0x48#8, 0x8B#8, 3#8] = .refuse .prefixNotAdmitted ∧
      decode [0x64#8, 0x50#8] = .refuse .prefixNotAdmitted ∧
      decode [0x67#8, 0x48#8, 0x8B#8, 0xC3#8] = .refuse .prefixNotAdmitted := by decide
theorem test_refuse_rex :
    decode [0x48#8, 0x64#8, 0x8B#8, 3#8] = .refuse .rexMisplaced ∧
      decode [0x48#8, 0x48#8, 0x8B#8, 3#8] = .refuse .rexMisplaced := by decide
/-- Bytes at fault in two ways, where R72 gives no order: the model's choice (entry 12). -/
theorem test_refuse_order_chosen :
    decode [0x48#8, 0x66#8, 0x8B#8, 3#8] = .refuse .rexMisplaced ∧
      decode [0x64#8, 0x67#8, 0x64#8, 0x48#8, 0x8B#8, 3#8] = .refuse .prefixNotAdmitted := by decide
/-- A prefix and a REX byte with W = 0, which nothing can follow: the opcode byte is asked for (entry 33). -/
theorem test_opcode_asked_for_before_refusal :
    decode [0x64#8, 0x40#8] = .more ∧ decode [0x64#8, 0x40#8, 0x8B#8] = .refuse .operandSize32 ∧
      decode [0x64#8, 0x40#8, 0x50#8] = .refuse .prefixNotAdmitted := by decide
theorem test_refuse_opcode :
    decode [0x90#8] = .refuse .opcodeNotAdmitted ∧ decode [0x0F#8, 5#8] = .refuse .opcodeNotAdmitted ∧
      decode [0xE9#8, 0#8, 0#8, 0#8, 0#8] = .refuse .opcodeNotAdmitted := by decide

/-! ### Addresses, V1, V2, V3, V5 -/

/-- The state every address test starts from: registers as listed, the rest 0. -/
def withRegs (s : State) (rs : List (Reg × Word)) : State := rs.foldl (fun t r => t.setReg r.1 r.2) s

theorem test_ea_v1_2_truncates : ea64 (withRegs State.reset [(0#4, 0x1FFFFFFF0#64)]) 0#64
    ⟨.a32, .reg 0#4, none, .x1, 0x20#64, none, false⟩ = 0x10#64 := by decide
theorem test_ea_v1_4_zero_extends : ea64 State.reset 0#64
    ⟨.a32, .none, none, .x1, 0xFFFFFFFFFFFFFFF8#64, none, false⟩ = 0xFFFFFFF8#64 := by decide
theorem test_ea_v1_7_wraps : ea64 (withRegs State.reset [(3#4, 0xFFFFFFFFFFFFFFFF#64), (1#4, 1#64)]) 0#64
    ⟨.a64, .reg 3#4, some 1#4, .x8, 0#64, none, false⟩ = 7#64 := by decide
theorem test_ea_v1_12_rip_relative_truncates : ea64 State.reset 0x100000014#64
    ⟨.a32, .next, none, .x1, 0#64, none, false⟩ = 0x14#64 := by decide

/-- `State.reset` with the bases of V2. -/
def based (ss fs gs : Word) : State :=
  { State.reset with ss := ⟨0#16, ss⟩, fs := ⟨0#16, fs⟩, gs := ⟨0#16, gs⟩ }
/-- A reference whose effective address is the displacement. -/
def at64 (a : Word) : Ref := ⟨.a64, .none, none, .x1, a, none, false⟩

theorem test_la_v2_2 : linear (based 0x1234#64 0#64 0#64) 0#64 .ss (at64 0x2000#64) = 0x2000#64 := by decide
theorem test_la_v2_3 : linear (based 0#64 0x7FFFFFFFF000#64 0#64) 0#64 .fs (at64 0x1000#64) = 0x800000000000#64 := by
  decide
theorem test_la_v2_4 : linear (based 0#64 0x100000000#64 0#64) 0#64 .fs { at64 0xFFFFFFFF#64 with asz := .a32 } =
    0x1FFFFFFFF#64 := by decide
theorem test_la_v2_6 : linear (based 0#64 0#64 0xFFFFFFFFFFFFF000#64) 0#64 .gs (at64 0x3000#64) = 0x2000#64 := by
  decide

theorem test_canonical_v3_48 :
    canonical 48 0#64 = true ∧ canonical 48 0x7FFFFFFFFFFF#64 = true ∧ canonical 48 0x800000000000#64 = false ∧
      canonical 48 0x1000000000000#64 = false ∧ canonical 48 0x8000000000000000#64 = false ∧
      canonical 48 0xFFFF7FFFFFFFFFFF#64 = false ∧ canonical 48 0xFFFF800000000000#64 = true ∧
      canonical 48 0xFFFFFFFFFFFFFFFF#64 = true := by decide
theorem test_canonical_v3_others :
    canonical 57 0x800000000000#64 = true ∧ canonical 57 0x00FFFFFFFFFFFFFF#64 = true ∧
      canonical 57 0x0100000000000000#64 = false ∧ canonical 57 0xFF00000000000000#64 = true ∧
      canonical 64 0x8000000000000000#64 = true ∧ canonical 64 0x123456789ABCDEF0#64 = true ∧
      canonical 33 0xFFFFFFFF#64 = true ∧ canonical 32 0x80000000#64 = false ∧ canonical 1 1#64 = false ∧
      canonical 1 0xFFFFFFFFFFFFFFFF#64 = true := by decide

theorem test_ipWrite_v5 :
    ({ State.reset with pc := 0x123456789ABCDEF0#64 }.ipWrite (.ip16 0x1111#16)).pc = 0x123456789ABC1111#64 ∧
      ({ State.reset with pc := 0x123456789ABCDEF0#64 }.ipWrite (.ip32 0x22223333#32)).pc = 0x22223333#64 ∧
      ({ State.reset with pc := 0x123456789ABCDEF0#64 }.ipWrite (.ip64 0xFFFF800000001000#64)).pc =
        0xFFFF800000001000#64 := by decide

/-! ### Steps, V4 and V7 -/

/-- A launch state with a program at 1000H, the word of V7 at 2000H, and a stack at 7FF0H. -/
def prog (code : List Byte) (rs : List (Reg × Word)) : State :=
  withRegs
    { State.reset with
      params := { resetParams with
        launchMem := [⟨0x1000, code.length⟩, ⟨0x2000, 8⟩, ⟨0x7FF0, 16⟩]
        codeEnd := 0x1000#64 + BitVec.ofNat 64 code.length }
      mem := (Memory.load ⟨[]⟩ 0x1000 code).load 0x2000
        [0x88#8, 0x77#8, 0x66#8, 0x55#8, 0x44#8, 0x33#8, 0x22#8, 0x11#8] } rs

/-- A register and `pc` after a step that gives a next state without a fault. -/
def gives (r : Result) (d : Reg) : Option (Word × Word) :=
  match r with
  | .next t => if t.fault = .none then some (t.reg d, t.pc) else none
  | .fault _ => none
  | .refused _ => none

/-- The eight bytes at an address, RSP and `pc` after such a step. -/
def stores (r : Result) (a : Nat) : Option (Word × Word × Word) :=
  match r with
  | .next t => if t.fault = .none then some (t.mem.readWord a, t.reg Reg.rsp, t.pc) else none
  | .fault _ => none
  | .refused _ => none

/-- The refusal a step answers. -/
def refusal (r : Result) : Option Refusal :=
  match r with
  | .next _ => none
  | .fault _ => none
  | .refused e => some e

/-- The address a step is stuck at. -/
def stuckAt (r : Result) : Option Word :=
  match r with
  | .next _ => none
  | .fault (.stuck a) => some a
  | .fault (.ended _) => none
  | .fault .final => none
  | .refused _ => none

/-- The exception a step takes, if all else is as it was. -/
def traps (s : State) : Option Exc :=
  match step s with
  | .next t =>
    match t.fault with
    | .raised x a => if t = s.raise x a then some x else none
    | .none => none
    | .refused => none
    | .stuck => none
  | .fault _ => none
  | .refused _ => none

theorem test_lea_v7_1 : gives (step (prog [0x48#8, 0x8D#8, 4#8, 0x40#8] [(0#4, 0x5555555555555556#64)])) 0#4 =
    some (2#64, 0x1004#64) := by decide
theorem test_lea_v7_2 : gives (step (prog [0x48#8, 0x8D#8, 5#8, 0#8, 0#8, 0#8, 0#8] [])) 0#4 =
    some (0x1007#64, 0x1007#64) := by decide
theorem test_movImm64_v7_3 :
    gives (step (prog [0x48#8, 0xBC#8, 0#8, 0x80#8, 0#8, 0#8, 0#8, 0#8, 0#8, 0#8] [])) 4#4 =
      some (0x8000#64, 0x100A#64) := by decide
theorem test_movImm64_v7_4 :
    gives (step (prog [0x48#8, 0xB8#8, 0xFF#8, 0xFF#8, 0xFF#8, 0xFF#8, 0xFF#8, 0xFF#8, 0xFF#8, 0xFF#8] [])) 0#4 =
      some (0xFFFFFFFFFFFFFFFF#64, 0x100A#64) := by decide
theorem test_movLoadMoffs_v7_5 :
    gives (step (prog [0x48#8, 0xA1#8, 0#8, 0x20#8, 0#8, 0#8, 0#8, 0#8, 0#8, 0#8] [])) 0#4 =
      some (0x1122334455667788#64, 0x100A#64) := by decide
theorem test_movLoadMoffs_v7_6 : gives (step (prog [0x67#8, 0x48#8, 0xA1#8, 0#8, 0x20#8, 0#8, 0#8] [])) 0#4 =
    some (0x1122334455667788#64, 0x1007#64) := by decide
theorem test_movStoreMoffs_v7_7 :
    stores (step (prog [0x48#8, 0xA3#8, 0xF8#8, 0x7F#8, 0#8, 0#8, 0#8, 0#8, 0#8, 0#8]
      [(0#4, 0x0102030405060708#64)])) 0x7FF8 = some (0x0102030405060708#64, 0#64, 0x100A#64) := by decide
theorem test_movStoreMoffs_v7_8 :
    refusal (step (prog [0x48#8, 0xA3#8, 0#8, 0x10#8, 0#8, 0#8, 0#8, 0#8, 0#8, 0#8] [])) = some .storeToCode := by
  decide
theorem test_movLoad_v7_9 : gives (step (prog [0x48#8, 0x8B#8, 0#8] [(0#4, 0x2000#64)])) 0#4 =
    some (0x1122334455667788#64, 0x1003#64) := by decide
theorem test_movLoad_v7_10 : stuckAt (step (prog [0x48#8, 0x8B#8, 3#8] [(3#4, 0x2001#64)])) = some 0x2008#64 := by
  decide
theorem test_movStore_v7_13 : stores (step (prog [0x48#8, 0x89#8, 0x24#8, 0x24#8] [(4#4, 0x7FF8#64)])) 0x7FF8 =
    some (0x7FF8#64, 0x7FF8#64, 0x1004#64) := by decide
theorem test_movStore_v6_13 : gives (step (prog [0x4D#8, 0x89#8, 0xC8#8] [(9#4, 7#64)])) 8#4 =
    some (7#64, 0x1003#64) := by decide
theorem test_push_v7_15 : stores (step (prog [0x54#8] [(4#4, 0x8000#64)])) 0x7FF8 =
    some (0x8000#64, 0x7FF8#64, 0x1001#64) := by decide
theorem test_push_v4_29 : refusal (step (prog [0x50#8] [(4#4, 4#64)])) = some .wrap := by decide
theorem test_pop_v7_17 : gives (step (prog [0x5C#8] [(4#4, 0x2000#64)])) 4#4 =
    some (0x1122334455667788#64, 0x1001#64) := by decide
theorem test_pop_v7_18 : gives (step (prog [0x41#8, 0x58#8] [(4#4, 0x2000#64)])) 8#4 =
    some (0x1122334455667788#64, 0x1002#64) := by decide
theorem test_jmp_v7_20 : gives (step (prog [0xEB#8, 0xFE#8] [])) 0#4 = some (0#64, 0x1000#64) := by decide
theorem test_jmp_v7_21 : gives (step (prog [0xEB#8, 0x7F#8] [])) 0#4 = some (0#64, 0x1081#64) := by decide

/-- `NC` of 95_test_vectors.md. -/
def nc : Word := 0x800000000000#64

theorem test_fault_class_v4 :
    traps (prog [0x48#8, 0x8B#8, 3#8] [(3#4, nc)]) = some .gp ∧
      traps (prog [0x48#8, 0x8B#8, 0x45#8, 0#8] [(5#4, nc)]) = some .ss ∧
      traps (prog [0x64#8, 0x48#8, 0x8B#8, 0x45#8, 0#8] [(5#4, nc)]) = some .gp ∧
      traps (prog [0x36#8, 0x48#8, 0x8B#8, 3#8] [(3#4, nc)]) = some .gp ∧
      traps (prog [0x49#8, 0x8B#8, 4#8, 0x24#8] [(12#4, nc)]) = some .gp := by decide
theorem test_stack_fault_v4_17 :
    traps (prog [0x50#8] [(4#4, 0x800000000008#64)]) = some .ss ∧ traps (prog [0x58#8] [(4#4, nc)]) = some .ss := by
  decide
theorem test_straddle_v4_23 : traps (prog [0x48#8, 0x8B#8, 3#8] [(3#4, 0x7FFFFFFFFFFC#64)]) = some .gp := by decide

/-- The two fixed functions of the host, on the table's PUSH row. -/
theorem test_table_word :
    decodeTableWord 8 0x50 = some (.push none 0#3) ∧
      gives (step (State.reset.withFetchWord 8 0x50)) 4#4 = some (0xFFFFFFFFFFFFFFF8#64, 0x1001#64) := by decide

/-- R71 and the listings P1, P2 and P5. -/
theorem test_asm :
    asm (.lea true rexW 1#3 (.base 0#3 (.d8 0x20#8))) = "LEA RCX, [EAX + 20H]" ∧
      asm (.movStoreMoffs .none rexW (.m64 0x2000#64)) = "MOV [0000000000002000H], RAX" ∧
      asm (.movLoad (.seg .gs) rexW 0#3 (.mem (.sibNoBase 0#2 4#3 0x3000#32))) = "MOV RAX, GS:[00003000H]" ∧
      asm (.movLoad .none rexW 2#3 (.mem (.ripRel 0xFEC#32))) = "MOV RDX, [RIP + 00000FECH]" := by decide

/-! ### Witnesses: a state and operands that meet the hypotheses of each statement -/

theorem witness_DecodeOfEncode : (Instr.lea true rexW 3#3 (.sib 2#2 1#3 5#3 (.d32 0xFFFFFFFF#32))).WellFormed := by
  decide
theorem witness_EncodeOfDecode : decode [0x5C#8, 0x90#8] = .ok (.pop none 4#3) [0x90#8] := by decide
theorem witness_ProperPrefixDecidesNothing :
    (Instr.movStoreMoffs (.seg .gs) rexW (.m64 0x2000#64)).WellFormed ∧
      10 < instrLength (.movStoreMoffs (.seg .gs) rexW (.m64 0x2000#64)) := by decide
theorem witness_RefusalIsDecidedOnce : decode [0x48#8, 0x8D#8, 0xC0#8] = .refuse .leaRegisterOperand := by decide
theorem witness_DecoderAsksForElevenBytesAtMost :
    decode [0x65#8, 0x48#8, 0xA3#8, 0#8, 0x20#8, 0#8, 0#8, 0#8, 0#8, 0#8] = .more := by decide
/-- Each clause: a first byte, a second override, a second `67H`, LEA with an override, and a prefix before opcodes at
the ends of their ranges. -/
theorem witness_UnadmittedPrefixesAreRefused :
    0x66#8 ∈ [0x66#8, 0xF0#8, 0xF2#8, 0xF3#8] ∧ (Legacy.a32Seg .fs).ovr ≠ none ∧ (Legacy.segA32 .es).hasA32 = true ∧
      Legacy.a32 ≠ .none ∧
      ∀ op ∈ [0xEB#8, 0x50#8, 0x5F#8, 0xB8#8, 0xBF#8],
        op = 0xEB ∨ 0x50 ≤ op.toNat ∧ op.toNat ≤ 0x5F ∨ 0xB8 ≤ op.toNat ∧ op.toNat ≤ 0xBF := by decide
theorem witness_MisplacedRexIsRefused :
    0x67#8 ∈ [0x26#8, 0x2E#8, 0x36#8, 0x3E#8, 0x64#8, 0x65#8, 0x66#8, 0x67#8, 0xF0#8, 0xF2#8, 0xF3#8] ∧
      (0x40 ≤ (0x40#8).toNat ∧ (0x40#8).toNat ≤ 0x4F) ∧ (0x40 ≤ (0x4F#8).toNat ∧ (0x4F#8).toNat ≤ 0x4F) := by decide
theorem witness_ThirtyTwoBitFormsAreRefused :
    (∀ x, some rex0 = some x → x.w = false) ∧ 0x8B#8 ∈ [0xA1#8, 0xA3#8, 0x8B#8, 0x89#8] ∧ Legacy.a32.ovr = none ∧
      (0xB8 ≤ (0xB8#8).toNat ∧ (0xB8#8).toNat ≤ 0xBF) ∧ 0xB8 ≤ (0xBF#8).toNat ∧ (0xBF#8).toNat ≤ 0xBF := by
  refine ⟨?_, by decide⟩
  rintro x h
  cases h
  rfl
theorem witness_OtherOpcodesAreRefused : ∀ op ∈ [0x3F#8, 0x60#8, 0xB7#8, 0xC0#8, 0xFF#8],
    op ∉ [0x26#8, 0x2E#8, 0x36#8, 0x3E#8, 0x64#8, 0x65#8, 0x66#8, 0x67#8, 0xF0#8, 0xF2#8, 0xF3#8, 0x8D#8, 0xA1#8,
      0xA3#8, 0x8B#8, 0x89#8, 0xEB#8] ∧
      ¬ (0x40 ≤ op.toNat ∧ op.toNat ≤ 0x5F) ∧ ¬ (0xB8 ≤ op.toNat ∧ op.toNat ≤ 0xBF) := by decide
theorem witness_RegisterFormsRefuseByName :
    Legacy.a32.ovr = none ∧ Legacy.a32 ≠ Legacy.none ∧ 0x89#8 ∈ [0x8B#8, 0x89#8] := by decide
theorem witness_StackBaseEncodings :
    (MemOperand.sib 0#2 4#3 4#3 .none).wf = true ∧ (MemOperand.base 5#3 (.d8 0#8)).wf = true ∧
      (MemOperand.sib 0#2 4#3 5#3 (.d32 0#32)).wf = true := by decide

theorem witness_CanonicalAddresses :
    canonical 1 0xFFFFFFFFFFFFFFFF#64 = true ∧ canonical 64 0x8000000000000000#64 = true := by decide
theorem witness_WiderImplementationsKeepCanonical :
    canonical 1 0xFFFFFFFFFFFFFFFF#64 = true ∧ canonical 48 0xFFFF800000000000#64 = true := by decide
theorem witness_ShortAddressesReadShortRegisters : ∀ r : Reg,
    ((withRegs State.reset [(3#4, 0x123456789ABCDEF0#64)]).reg r).setWidth 32 =
      ((withRegs State.reset [(3#4, 0x9ABCDEF0#64)]).reg r).setWidth 32 := by decide
theorem witness_FirstAndLastByteSuffice :
    resetParams.BitsAdmitted ∧ 0x7FFFFFFFFFF1 + 15 ≤ addressSpace ∧ canonicalAt resetParams 0x7FFFFFFFFFF1 = true ∧
      canonicalAt resetParams (0x7FFFFFFFFFF1 + 15 - 1) = true := by decide

/-- References through RSP and RBX with an FS override, through RBX with an SS override, through RBP, and through
RAX. -/
def rspFs : Ref := ⟨.a64, .reg Reg.rsp, none, .x1, 0#64, some .fs, false⟩
def rbxFs : Ref := ⟨.a64, .reg 3#4, none, .x1, 0#64, some .fs, false⟩
def rbxSs : Ref := ⟨.a64, .reg 3#4, none, .x1, 0#64, some .ss, false⟩
def rbpOnly : Ref := ⟨.a64, .reg Reg.rbp, none, .x1, 0#64, none, false⟩
def raxOnly : Ref := ⟨.a64, .reg 0#4, none, .x1, 0#64, none, false⟩

theorem witness_StackFaultExactlyUnderSS :
    (stackRef 0#64).impliedStack = true ∧
      (stackBase rbpOnly = true ∧ rbpOnly.ovr ≠ some .fs ∧ rbpOnly.ovr ≠ some .gs) ∧
      (raxOnly.impliedStack = false ∧ stackBase raxOnly = false ∧ raxOnly.ovr ≠ some .fs ∧ raxOnly.ovr ≠ some .gs) ∧
      dataRef State.reset (.pop none 0#3) = some (stackRef 0#64) := by decide
theorem witness_OverrideOnStackBaseGivesGP :
    (rspFs.impliedStack = false ∧ rspFs.ovr = some .fs ∧ stackBase rspFs = true) ∧
      rbxFs.impliedStack = false ∧ rbxFs.ovr = some .fs ∧ stackBase rbxFs = false := by decide
theorem witness_OtherOverridesAreIgnored :
    Seg.ss ≠ .fs ∧ Seg.ss ≠ .gs ∧ rbxSs.impliedStack = false ∧ stackBase rbxSs = false := by decide

/-- Each of the four answers of `Ref`, at the addresses where they meet. -/
theorem witness_ReferenceChecksInOrder :
    refCheck State.reset 0#64 (at64 0xFFFFFFFFFFFFFFF9#64) 8 = .refuse .wrap ∧
      refCheck State.reset 0#64 (at64 0xFFFFFFFFFFFFFFF8#64) 8 = .ok ∧
      refCheck State.reset 0#64 (at64 0x7FFFFFFFFFF9#64) 8 = .raise .gp 0x800000000000#64 ∧
      refCheck State.reset 0#64 (at64 0x7FFFFFFFFFF8#64) 8 = .ok ∧
      refCheck (prog [] []) 0#64 (at64 0x2001#64) 8 = .stuck 0x2008#64 := by decide

theorem witness_WriteChangesOnlyItsBytes :
    0x0FFF < 0x1000 ∧ 0x1000 + 8 ≤ 0x1008 ∧ 0xFFFFFFFFFFFFFFF8 + 8 ≤ addressSpace ∧ State.reset.mem.wf := by decide

/-- `MOV RAX, [RBX]` at 1000H, RBX at the word of V7, RSP at the top of the stack. -/
def loading : State := prog [0x48#8, 0x8B#8, 3#8] [(3#4, 0x2000#64), (4#4, 0x8000#64)]

theorem loading_running : loading.Running := ⟨rfl, rfl, by decide, by decide, by decide⟩
theorem loading_holds : loading.Holds [0x48#8, 0x8B#8, 3#8] := by unfold State.Holds; decide

theorem witness_StepRunsTheDecodedInstruction : ∃ i : Instr,
    loading.Running ∧ i.WellFormed ∧ loading.Holds (encode i) :=
  ⟨.movLoad .none rexW 0#3 (.mem (.base 3#3 .none)), loading_running, by decide, loading_holds⟩

/-- The state of each clause of the tests before a step. -/
theorem witness_StepTestsInOrder :
    { loading with fault := .stuck }.fault ≠ .none ∧
      (loading.fault = .none ∧ { loading with mode := .compatibility }.executes = false) ∧
      (loading.executes = true ∧ { loading with pc := 0x1003#64 }.pc = loading.params.codeEnd) ∧
      (0x800000000000#64 ≠ loading.params.codeEnd ∧ canonical loading.params.laBits 0x800000000000#64 = false) ∧
      (canonical loading.params.laBits 0x1004#64 = true ∧ inCode loading.params 0x1004 = false) := by decide

/-- A program whose two bytes `48 8B` end at an address of one's choice, all canonical memory available. -/
def endingAt (pc codeEnd : Word) : State :=
  { State.reset with
    params := { resetParams with codeBase := pc, codeEnd := codeEnd }
    pc := pc
    mem := Memory.load ⟨[]⟩ pc.toNat [0x48#8, 0x8B#8] }

/-- The third byte of a load would wrap, is not canonical, or is outside `LaunchMem`. -/
theorem witness_FetchChecksEachByte :
    (let s := endingAt 0xFFFFFFFFFFFFFFFE#64 0xFFFFFFFFFFFFFFFF#64
     s.Running ∧ s.Holds [0x48#8, 0x8B#8] ∧ addressSpace ≤ s.pc.toNat + 2) ∧
      (let s := endingAt 0x7FFFFFFFFFFE#64 0x800000000001#64
       s.Running ∧ s.Holds [0x48#8, 0x8B#8] ∧ canonicalAt s.params (s.pc.toNat + 2) = false) ∧
      let s := prog [0x48#8, 0x8B#8] []
      s.Running ∧ s.Holds [0x48#8, 0x8B#8] ∧ canonicalAt s.params (s.pc.toNat + 2) = true ∧
        inLaunch s.params (s.pc.toNat + 2) = false := by
  refine ⟨⟨⟨rfl, rfl, by decide, by decide, by decide⟩, by unfold State.Holds; decide, by decide⟩,
    ⟨⟨rfl, rfl, by decide, by decide, by decide⟩, by unfold State.Holds; decide, by decide⟩,
    ⟨rfl, rfl, by decide, by decide, by decide⟩, by unfold State.Holds; decide, by decide⟩
theorem witness_UndecodableBytesAreRefused :
    (prog [0x90#8] []).Running ∧ (prog [0x90#8] []).Holds [0x90#8] ∧ decode [0x90#8] = .refuse .opcodeNotAdmitted :=
  ⟨⟨rfl, rfl, by decide, by decide, by decide⟩, by unfold State.Holds; decide, by decide⟩

/-- For LeaCompletes, MovImmediateCompletes, MovBetweenRegistersCompletes and JmpCompletes, which ask no more. -/
theorem witness_CompletionWithoutReference : loading.executes = true := by decide
theorem witness_MovLoadsComplete : loading.executes = true ∧ loading.Accessible 0x2000 8 ∧
    refAddr loading 0x1003#64 (memRef rexW .a64 none (.base 3#3 .none)) = 0x2000#64 ∧
    refAddr loading 0x100A#64 (moffsRef .none (.m64 0x2000#64)) = 0x2000#64 := by
  unfold State.Accessible; decide
theorem witness_MovStoresComplete : loading.executes = true ∧ loading.Accessible 0x7FF8 8 ∧
    (∀ k < 8, inCode loading.params (0x7FF8 + k) = false) ∧
    refAddr loading 0x1003#64 (memRef rexW .a64 none (.sib 0#2 4#3 4#3 (.d8 0xF8#8))) = 0x7FF8#64 ∧
    refAddr loading 0x100A#64 (moffsRef .none (.m64 0x7FF8#64)) = 0x7FF8#64 := by
  unfold State.Accessible; decide
theorem witness_PushCompletes : loading.reg Reg.rsp - 8#64 = 0x7FF8#64 ∧ loading.Accessible 0x7FF8 8 ∧
    ∀ k < 8, inCode loading.params (0x7FF8 + k) = false := by
  unfold State.Accessible; decide
theorem witness_PopCompletes : (prog [0x58#8] [(4#4, 0x7FF8#64)]).reg Reg.rsp = 0x7FF8#64 ∧
    (prog [0x58#8] [(4#4, 0x7FF8#64)]).Accessible 0x7FF8 8 := by
  unfold State.Accessible; decide

/-- A next state with a property, from a test of the answer. -/
def nextWith (r : Result) (p : State → Bool) : Bool :=
  match r with
  | .next t => p t
  | .fault _ => false
  | .refused _ => false

theorem next_of_nextWith {r : Result} {p : State → Bool} (h : nextWith r p = true) : ∃ t, r = .next t ∧ p t = true := by
  cases r with
  | next t => exact ⟨t, rfl, h⟩
  | fault e => simp [nextWith] at h
  | refused e => simp [nextWith] at h

theorem witness_PopAfterPushRestores :
    (∃ t, exec (.push none 0#3) loading = .next t ∧ (t.fault == .none) = true) ∧ regNum (rexB none) 3#3 ≠ Reg.rsp :=
  ⟨next_of_nextWith (by decide), by decide⟩

/-- A load through RSP, at the boundary address whose last byte leaves canonical form. -/
theorem witness_NonCanonicalReferenceTraps :
    let s := prog [0x48#8, 0x8B#8, 4#8, 0x24#8] [(4#4, 0x7FFFFFFFFFF9#64)]
    s.executes = true ∧
      dataRef s (.movLoad .none rexW 0#3 (.mem (.sib 0#2 4#3 4#3 .none))) =
        some (memRef rexW .a64 none (.sib 0#2 4#3 4#3 .none)) ∧
      (refAddr s 0x1004#64 (memRef rexW .a64 none (.sib 0#2 4#3 4#3 .none))).toNat + 8 ≤ addressSpace ∧
      ∃ k < 8, canonicalAt s.params
        ((refAddr s 0x1004#64 (memRef rexW .a64 none (.sib 0#2 4#3 4#3 .none))).toNat + k) = false := by decide
theorem witness_WrapIsRefusedAndOutsideIsStuck :
    (let s := prog [0x58#8] [(4#4, 0xFFFFFFFFFFFFFFF9#64)]
     s.executes = true ∧ dataRef s (.pop none 0#3) = some (stackRef (s.reg Reg.rsp)) ∧
        addressSpace < (refAddr s 0x1001#64 (stackRef (s.reg Reg.rsp))).toNat + 8) ∧
      let s := prog [0x58#8] [(4#4, 0x7FF9#64)]
      (∀ k < 8, canonicalAt s.params (0x7FF9 + k) = true) ∧ inLaunch s.params (0x7FF9 + 7) = false ∧
        refAddr s 0x1001#64 (stackRef (s.reg Reg.rsp)) = 0x7FF9#64 := by decide
theorem witness_StoreToCodeIsRefused :
    let s := prog [0x50#8, 0x50#8, 0x50#8, 0x50#8, 0x50#8, 0x50#8, 0x50#8, 0x50#8] [(4#4, 0x1008#64)]
    s.executes = true ∧ isStore (.push none 0#3) = true ∧
      dataRef s (.push none 0#3) = some (stackRef (s.reg Reg.rsp - 8#64)) ∧ s.Accessible 0x1000 8 ∧
      inCode s.params (0x1000 + 7) = true := by
  unfold State.Accessible; decide
theorem witness_StackFaultOnlyFromStackReferences :
    ∃ t, step (prog [0x50#8] [(4#4, 0x800000000008#64)]) = .next t ∧
      (t.fault == .raised .ss 0x800000000000#64) = true := next_of_nextWith (by decide)
theorem witness_NothingExecutesOutsideMode64 :
    { loading with mode := .compatibility }.mode ≠ .mode64 ∧
      { loading.params with intel64 := false }.intel64 = false := by decide
theorem witness_FrameOfEveryInstruction :
    (∃ t, exec (.movLoad .none rexW 0#3 (.mem (.base 3#3 .none))) loading = .next t ∧ (t.fault == .none) = true) ∧
      (∃ t, exec (.push none 0#3) loading = .next t ∧ (t.fault == .none) = true) ∧
      isStore (.push none 0#3) = true :=
  ⟨next_of_nextWith (by decide), next_of_nextWith (by decide), rfl⟩

/-- A step that completes, for the statements about every step. -/
theorem witness_StepKeepsControlState : ∃ t, step loading = .next t ∧ (t.fault == .none) = true :=
  next_of_nextWith (by decide)

/-- The identity meets R33's premise on the memory of `loading`, which lies below 8000H. -/
theorem loading_translate : TranslatePremise some loading.params where
  defined a h := by
    simp [loading, prog, withRegs, State.setReg, inLaunch, inPhysicalSpace, resetParams] at h ⊢
    omega
  injective a b _ _ h := Option.some.inj h
theorem loading_admitted : loading.Admitted some := by
  refine ⟨rfl, rfl, rfl, by decide, by decide, ?_, ?_, by decide, by decide, loading_translate⟩
  · intro a h
    have ha : a < 0x8000 := by simp [loading, prog, withRegs, State.setReg, inLaunch] at h; omega
    have hs : BitVec.ofNat 64 a >>> 47 = 0#64 := by
      apply BitVec.eq_of_toNat_eq
      simp [Nat.shiftRight_eq_div_pow]
      omega
    refine ⟨by unfold addressSpace; omega, ?_⟩
    simp [canonicalAt, canonical, loading, prog, withRegs, State.setReg, resetParams, hs]
  · intro a h
    simp [loading, prog, withRegs, State.setReg, inLaunch, inCode, resetParams] at h ⊢
    omega
theorem witness_StepKeepsAdmitted :
    loading.Admitted some ∧ ∃ t, step loading = .next t ∧ (t.fault == .none) = true :=
  ⟨loading_admitted, witness_StepKeepsControlState⟩
theorem witness_RunsStayAdmitted : loading.LaunchAdmitted some ∧ inCode loading.params 0x1000 = true :=
  ⟨⟨loading_admitted, rfl, rfl⟩, by decide⟩
/-- Folding the canonical addresses of 48 bits onto 48 physical bits meets R33's premise on the reset memory. -/
theorem witness_ResetIsALaunchState : TranslatePremise (fun a => some (a % 2 ^ 48)) State.reset.params where
  defined a _ := ⟨a % 2 ^ 48, rfl, decide_eq_true (Nat.mod_lt a (by decide))⟩
  injective a b ha hb h := by
    simp [inLaunch, State.reset, resetParams] at ha hb h
    omega
theorem witness_ProgramBytesAreImmutable :
    (∃ t, step (prog [0x50#8] [(4#4, 0x8000#64)]) = .next t ∧ (t.fault == .none) = true) ∧
      inCode (prog [0x50#8] [(4#4, 0x8000#64)]).params 0x1000 = true := ⟨next_of_nextWith (by decide), by decide⟩
theorem witness_ExceptionsArePrecise :
    ∃ t, step (prog [0x48#8, 0x8B#8, 3#8] [(3#4, nc)]) = .next t ∧ (t.fault != .none) = true :=
  next_of_nextWith (by decide)
theorem witness_RunEndsForGood :
    { loading with fault := .refused }.fault ≠ .none ∧
      ({ loading with pc := 0x1003#64 }.executes = true ∧ { loading with pc := 0x1003#64 }.Final) ∧
      refusal (step (prog [0x90#8] [])) = some (.undecodable .opcodeNotAdmitted) ∧
      stuckAt (step (prog [0x58#8] [(4#4, 0x7FF9#64)])) = some 0x8000#64 := by decide

/-- The first values past each bound, which no vector covers: an offset of 10000H (entry 31) and a sum of 10_0000H. -/
theorem test_real_address_bounds :
    realLinear (.far32 0#16 0x10000#32) = none ∧ realLinear (.far32 0#16 0xFFFF#32) = some 0xFFFF ∧
      realLinear (.far16 0xFFFF#16 0x10#16) = none := by decide

theorem witness_AddressSizesOfEachMode :
    Mode.compatibility ∈ [Mode.protectedMode, Mode.compatibility] ∧ Mode.virtual8086 ≠ .mode64 := by decide
theorem witness_DirectMappingIsOneToOne :
    ({ loading with mode := .protectedMode, paging := false }.mode ≠ .mode64 ∧ Mode.protectedMode ≠ .smm) ∧
      { loading with mode := .compatibility }.paging = true ∧ loading.mode = .mode64 ∧
      { loading with mode := .smm }.mode = .smm := by decide
/-- Both values of INTEL64, at the two sides of `2^32` and of `2^PA_BITS`. -/
theorem witness_PhysicalAddressesReached :
    (resetParams.intel64 = true ∧ physicalReachable resetParams .mode64 true false 0xFFFFFFFFFFFF = true ∧
        physicalReachable resetParams .mode64 true true 0x1000000000000 = false) ∧
      (let p := { resetParams with intel64 := false, paBits := 36 }
       p.intel64 = false ∧ p.BitsAdmitted ∧ 2 ^ 32 ≤ 0x100000000 ∧
        physicalReachable p .protectedMode true true 0x100000000 = true) ∧
      (physicalReachable resetParams .realAddress false false 0xFFFFF = true ∧
        physicalReachable resetParams .virtual8086 false false 0x100000 = false) ∧
      (modeExists resetParams .compatibility = true ∧
        physicalReachable resetParams .compatibility false true 0xFFFFFFFF = true ∧
        physicalReachable resetParams .protectedMode false true 0x100000000 = false) ∧
      Mode.protectedMode ≠ .mode64 ∧ physicalReachable resetParams .protectedMode true false 0xFFFFFFFF = true := by
  decide
theorem witness_CompatibilityAddressesAreLow :
    ASize.a32 ≠ .a64 ∧
      compatLinear (fun _ => 0xFFFFF000) loading 0#64 8#16 { at64 0xFFF#64 with asz := .a32 } = some 0xFFFFFFFF ∧
      compatLinear (fun _ => 0xFFFFF000) loading 0#64 8#16 { at64 0x1000#64 with asz := .a32 } = none ∧
      33 ≤ loading.params.laBits ∧ loading.params.laBits ≤ 64 := by decide
theorem witness_RealAddressesAreCapped :
    realLinear (.far16 0xFFFF#16 0xF#16) = some 0xFFFFF ∧ realLinear (.far32 0xF000#16 0xFFFF#32) = some 0xFFFFF := by
  decide

end Sys2Proof.Tests
end

section
/-! The memory models of the operating modes (20_memory.md section 5). -/

namespace Sys2Proof.Proofs

open Sys2Proof Sys2Proof.Machine

@[simp] theorem offers_realAddress_self : offers .realAddress .realAddress = .yes := rfl

/-- The "only" of R37: both other models are refused, neither left unsaid nor offered as similar. -/
theorem offers_realAddress_of_ne {mm : MemoryModel} (h : mm ≠ .realAddress) : offers .realAddress mm = .no := by
  cases mm with
  | flat => rfl
  | segmented => rfl
  | realAddress => exact absurd rfl h

/-- Settles O56: the mode's own model is offered, and every other one is not. -/
theorem realAddressModeHasOneModel : Obligations.RealAddressModeHasOneModel := by
  intro mm
  split
  case isTrue h => rw [h, offers_realAddress_self]
  case isFalse h => exact offers_realAddress_of_ne h

end Sys2Proof.Proofs
end

section
/-! The writes of the instruction pointer (40_address_calculation.md section 4, Table 3-1). -/

namespace Sys2Proof.Proofs

open Sys2Proof Sys2Proof.Machine

/-- The row "Not Modified, IP" of Table 3-1. -/
@[simp] theorem ipWrite_ip16_pc (s : State) (v : BitVec 16) :
    (s.ipWrite (.ip16 v)).pc = s.pc.extractLsb' 16 48 ++ v := rfl

/-- The row "Zero Extension, EIP" of Table 3-1, written as its two halves. -/
@[simp] theorem ipWrite_ip32_pc (s : State) (v : BitVec 32) : (s.ipWrite (.ip32 v)).pc = 0#32 ++ v :=
  BitVec.setWidth_eq_append (x := v) (w := 64) (by decide)

theorem ipWrite_ip16_ip (s : State) (v : BitVec 16) : (s.ipWrite (.ip16 v)).ip = v := by
  rw [State.ip, ipWrite_ip16_pc, BitVec.extractLsb'_append_eq_right]

theorem ipWrite_ip16_upper (s : State) (v : BitVec 16) :
    (s.ipWrite (.ip16 v)).pc.extractLsb' 16 48 = s.pc.extractLsb' 16 48 := by
  rw [ipWrite_ip16_pc, BitVec.extractLsb'_append_eq_left]

theorem ipWrite_ip32_eip (s : State) (v : BitVec 32) : (s.ipWrite (.ip32 v)).eip = v := by
  rw [State.eip, ipWrite_ip32_pc, BitVec.extractLsb'_append_eq_right]

theorem ipWrite_ip32_upper (s : State) (v : BitVec 32) : (s.ipWrite (.ip32 v)).pc.extractLsb' 32 32 = 0#32 := by
  rw [ipWrite_ip32_pc, BitVec.extractLsb'_append_eq_left]

theorem ipWrite_sameControl (s : State) (v : IpValue) : SameControl s (s.ipWrite v) := by
  constructor <;> simp

/-- Settles O25: each row of Table 3-1, then what every write of the instruction pointer leaves as it was. -/
theorem instructionPointerWrites : Obligations.InstructionPointerWrites := by
  intro s
  refine ⟨fun v => ⟨?ip, ?above16⟩, fun v => ⟨?eip, ?above32⟩, fun v => ?rip, fun v => ⟨?control, ?regs, ?mem⟩⟩
  case ip => exact ipWrite_ip16_ip s v
  case above16 => exact ipWrite_ip16_upper s v
  case eip => exact ipWrite_ip32_eip s v
  case above32 => exact ipWrite_ip32_upper s v
  case rip => exact ipWrite_ip64 s v
  case control => exact ipWrite_sameControl s v
  case regs => exact ipWrite_regs s v
  case mem => exact ipWrite_mem s v

end Sys2Proof.Proofs
end

section
/-! The canonical form of an address (41_canonical_addressing.md R87, R88). -/

namespace Sys2Proof.Proofs

open Sys2Proof Sys2Proof.Machine

/-- Shifting `m` bits out leaves zero exactly when the bits from `m` on are zeros. -/
theorem ushiftRight_eq_zero_iff (a : Word) (m : Nat) :
    a >>> m = 0#64 ↔ ∀ k, m ≤ k → k ≤ 63 → a.getLsbD k = false := by
  constructor
  · intro h k hm _
    have hk : (a >>> m).getLsbD (k - m) = false := by simp [h]
    simpa [hm] using hk
  · intro h
    ext i hi
    by_cases hk : m + i ≤ 63
    · simpa using h (m + i) (Nat.le_add_right m i) hk
    · simpa using BitVec.getLsbD_of_ge a (m + i) (by omega)

/-- R87, bit by bit: bits 63 to `n-1` are all zeros or all ones. -/
theorem canonical_iff_zeros_or_ones (n : Nat) (a : Word) :
    canonical n a = true ↔
      (∀ k, n - 1 ≤ k → k ≤ 63 → a.getLsbD k = false) ∨ ∀ k, n - 1 ≤ k → k ≤ 63 → a.getLsbD k = true := by
  have hnot : ~~~a >>> (n - 1) = 0#64 ↔ ∀ k, n - 1 ≤ k → k ≤ 63 → a.getLsbD k = true := by
    rw [ushiftRight_eq_zero_iff]
    refine forall₃_congr fun k _ hk => ?_
    simp [Nat.lt_succ_of_le hk]
  simp only [canonical, Bool.or_eq_true, beq_iff_eq, ushiftRight_eq_zero_iff a, hnot]

/-- R88 at any width: the bits above the most-significant implemented one repeat it. -/
theorem canonical_iff_upper_eq_top {n : Nat} (h1 : 1 ≤ n) (h64 : n ≤ 64) (a : Word) :
    canonical n a = true ↔ ∀ k, n ≤ k → k ≤ 63 → a.getLsbD k = a.getLsbD (n - 1) := by
  have htop : n - 1 ≤ 63 := by omega
  rw [canonical_iff_zeros_or_ones]
  constructor
  · rintro (h | h) k hk hk63
    all_goals rw [h k (by omega) hk63, h (n - 1) le_rfl htop]
  · intro h
    have hall : ∀ k, n - 1 ≤ k → k ≤ 63 → a.getLsbD k = a.getLsbD (n - 1) := fun k hk hk63 =>
      (Nat.eq_or_lt_of_le hk).elim (fun e => by rw [e]) fun hlt => h k (by omega) hk63
    cases hbit : a.getLsbD (n - 1) with
    | false => exact .inl fun k hk hk63 => (hall k hk hk63).trans hbit
    | true => exact .inr fun k hk hk63 => (hall k hk hk63).trans hbit

/-- Settles O18: the width 48 of R88's general form. -/
theorem canonicalFortyEightBits : Obligations.CanonicalFortyEightBits :=
  canonical_iff_upper_eq_top (n := 48) (by decide) (by decide)

end Sys2Proof.Proofs
end

section
/-! The segment and the exception of a reference (41_canonical_addressing.md R92 to R95). -/

namespace Sys2Proof.Proofs

open Sys2Proof Sys2Proof.Machine

theorem effSeg_of_fs_or_gs {ref : Ref} {g : Seg} (hi : ref.impliedStack = false) (ho : ref.ovr = some g)
    (hg : g = .fs ∨ g = .gs) : effSeg ref = g := by
  obtain rfl | rfl := hg
  · simp [effSeg, hi, ho]
  · simp [effSeg, hi, ho]

theorem faultClass_of_fs_or_gs {ref : Ref} (hi : ref.impliedStack = false)
    (ho : ref.ovr = some .fs ∨ ref.ovr = some .gs) : faultClass ref = .gp := by
  simp [faultClass, hi, ho]

/-- R93 with no FS or GS override: the stack access and the stack bases use SS, all else DS. -/
theorem effSeg_setOvr_of_not_fs_gs (ref : Ref) {o : Option Seg} (hfs : o ≠ some .fs) (hgs : o ≠ some .gs) :
    effSeg { ref with ovr := o } =
      if ref.impliedStack = true then .ss else if stackBase ref = true then .ss else .ds := by
  simp only [effSeg, if_neg hfs, if_neg hgs]
  rfl

/-- R95 with no FS or GS override: #SS for the stack access and the stack bases, #GP for all else. -/
theorem faultClass_setOvr_of_not_fs_gs (ref : Ref) {o : Option Seg} (hfs : o ≠ some .fs) (hgs : o ≠ some .gs) :
    faultClass { ref with ovr := o } =
      if ref.impliedStack = true then .ss else if stackBase ref = true then .ss else .gp := by
  simp only [faultClass, if_neg (not_or.mpr ⟨hfs, hgs⟩)]
  rfl

/-- Settles O22: the override is looked at before the base. -/
theorem overrideOnStackBaseGivesGP : Obligations.OverrideOnStackBaseGivesGP := by
  intro ref g hi ho hg
  have hovr : ref.ovr = some .fs ∨ ref.ovr = some .gs := by simpa [ho] using hg
  exact ⟨effSeg_of_fs_or_gs hi ho hg, faultClass_of_fs_or_gs hi hovr⟩

/-- Settles O23: with neither FS nor GS the override stands nowhere in the segment or in the exception. -/
theorem otherOverridesAreIgnored : Obligations.OtherOverridesAreIgnored := by
  intro ref g hfs hgs
  have hfs' : some g ≠ some Seg.fs := hfs ∘ Option.some.inj
  have hgs' : some g ≠ some Seg.gs := hgs ∘ Option.some.inj
  refine ⟨?seg, ?exc, fun hi hb => ?gp⟩
  case seg =>
    rw [effSeg_setOvr_of_not_fs_gs ref hfs' hgs', effSeg_setOvr_of_not_fs_gs ref (o := none) nofun nofun]
  case exc =>
    rw [faultClass_setOvr_of_not_fs_gs ref hfs' hgs', faultClass_setOvr_of_not_fs_gs ref (o := none) nofun nofun]
  case gp =>
    rw [faultClass_setOvr_of_not_fs_gs ref hfs' hgs']
    simp [hi, hb]

end Sys2Proof.Proofs
end

section
/-! The front of an instruction: its legacy bytes, its REX byte and its opcode byte (30_encoding.md R60 to R63). -/

namespace Sys2Proof.Proofs

open Sys2Proof Sys2Proof.Machine

/-! ### The bytes before the opcode, read back -/

theorem decode_encodeLegacy (p : Legacy) (bs : List Byte) : decode (encodeLegacy p ++ bs) = decodeFrom p bs := by
  cases p <;> simp [decode, encodeLegacy, decodeFrom, addPrefix]

theorem decodeFrom_refused {p : Legacy} {b : Byte} {k : PrefixByte} (hb : prefixByte b = some k)
    (hk : addPrefix p k = none) (bs : List Byte) : decodeFrom p (b :: bs) = .refuse .prefixNotAdmitted := by
  simp [decodeFrom, hb, hk]

theorem decodeFrom_encodeRex (p : Legacy) (x : Rex) (bs : List Byte) :
    decodeFrom p (encodeRex x :: bs) = decodeAfterRex p x bs := by
  simp [decodeFrom]

/-- A byte that stands where the opcode is looked for. -/
theorem decodeFrom_front {op : Byte} (h : prefixByte op = none ∧ rexByte? op = none) (p : Legacy) (rex : Option Rex)
    (bs : List Byte) : decodeFrom p (encodeRex? rex ++ op :: bs) = decodeOpcode p rex op bs := by
  obtain ⟨hp, hr⟩ := h
  cases rex with
  | none => simp [encodeRex?, decodeFrom, hp, hr]
  | some x => simp [encodeRex?, decodeFrom_encodeRex, decodeAfterRex, takeByte, hp, hr]

theorem decode_front {op : Byte} (h : prefixByte op = none ∧ rexByte? op = none) (p : Legacy) (rex : Option Rex)
    (bs : List Byte) : decode (encodeLegacy p ++ encodeRex? rex ++ op :: bs) = decodeOpcode p rex op bs := by
  rw [List.append_assoc, decode_encodeLegacy, decodeFrom_front h]

theorem decode_front_rex {op : Byte} {o : Opcode} (ho : opcode? op = some o) (p : Legacy) (x : Rex) (bs : List Byte) :
    decode (encodeLegacy p ++ encodeRex x :: op :: bs) = decodeOpcode p (some x) op bs := by
  rw [← decode_front (no_prefix_of_opcode ho), List.append_assoc]
  rfl

theorem decode_badLegacy {p : Legacy} {b : Byte} {k : PrefixByte} (hb : prefixByte b = some k)
    (hk : addPrefix p k = none) (bs : List Byte) :
    decode (encodeLegacy p ++ b :: bs) = .refuse .prefixNotAdmitted := by
  rw [decode_encodeLegacy, decodeFrom_refused hb hk]

theorem decode_misplaced {b : Byte} (hb : (prefixByte b).isSome ∨ (rexByte? b).isSome) (p : Legacy) (x : Rex)
    (bs : List Byte) : decode (encodeLegacy p ++ encodeRex x :: b :: bs) = .refuse .rexMisplaced := by
  simp only [decode_encodeLegacy, decodeFrom_encodeRex, decodeAfterRex, takeByte, if_pos hb]

theorem decode_short (p : Legacy) (rex : Option Rex) : decode (encodeLegacy p ++ encodeRex? rex) = .more := by
  rw [decode_encodeLegacy]
  cases rex with
  | none => rfl
  | some x => rw [encodeRex?, decodeFrom_encodeRex]; rfl

/-! ### Every byte string has one of four fronts -/

/-- How the front of any bytes reads: they run out before an opcode; a legacy byte comes that is not admitted; a legacy
byte or a second REX byte follows a REX byte; or a byte stands where the opcode is looked for. -/
inductive Front : List Byte → Prop where
  | short (p : Legacy) (rex : Option Rex) : Front (encodeLegacy p ++ encodeRex? rex)
  | badLegacy (p : Legacy) (b : Byte) (k : PrefixByte) (bs : List Byte) (hb : prefixByte b = some k)
      (hk : addPrefix p k = none) : Front (encodeLegacy p ++ b :: bs)
  | misplaced (p : Legacy) (x : Rex) (b : Byte) (bs : List Byte) (hb : (prefixByte b).isSome ∨ (rexByte? b).isSome) :
      Front (encodeLegacy p ++ encodeRex x :: b :: bs)
  | opcode (p : Legacy) (rex : Option Rex) (op : Byte) (bs : List Byte)
      (h : prefixByte op = none ∧ rexByte? op = none) : Front (encodeLegacy p ++ encodeRex? rex ++ op :: bs)

/-- A legacy byte that is admitted after others is the last of the legacy bytes. -/
theorem encodeLegacy_addPrefix {p q : Legacy} {b : Byte} {k : PrefixByte} (hb : prefixByte b = some k)
    (hq : addPrefix p k = some q) : encodeLegacy q = encodeLegacy p ++ [b] := by
  cases k with
  | seg g =>
    obtain rfl := segPrefix_of_prefixByte hb
    cases p <;> simp_all [addPrefix] <;> subst hq <;> rfl
  | a32 =>
    obtain rfl := byte_67_of_prefixByte hb
    cases p <;> simp_all [addPrefix] <;> subst hq <;> rfl
  | refused => cases p <;> simp [addPrefix] at hq

theorem front_after (p : Legacy) (bs : List Byte) : Front (encodeLegacy p ++ bs) := by
  induction bs generalizing p with
  | nil => simpa [encodeRex?] using Front.short p none
  | cons b bs ih =>
    cases hb : prefixByte b with
    | some k =>
      cases hk : addPrefix p k with
      | none => exact .badLegacy p b k bs hb hk
      | some q => simpa [encodeLegacy_addPrefix hb hk] using ih q
    | none =>
      cases hr : rexByte? b with
      | none => simpa [encodeRex?] using Front.opcode p none b bs ⟨hb, hr⟩
      | some x =>
        obtain rfl := encodeRex_of_rexByte hr
        match bs with
        | [] => exact .short p (some x)
        | c :: bs =>
          by_cases hc : (prefixByte c).isSome ∨ (rexByte? c).isSome
          · exact .misplaced p x c bs hc
          · have hc : prefixByte c = none ∧ rexByte? c = none := by simpa using hc
            simpa [encodeRex?] using Front.opcode p (some x) c bs hc

theorem front (bs : List Byte) : Front bs := by
  simpa [encodeLegacy] using front_after .none bs

end Sys2Proof.Proofs
end

section
/-! The fields after the opcode byte (30_encoding.md R64 to R67): each decoder reads back what the encoder writes, reads
nothing else, and asks for no byte more than the field has. -/

namespace Sys2Proof.Proofs

open Sys2Proof Sys2Proof.Machine

/-! ### Displacement -/

@[simp] theorem dispMod_ne_three (d : Disp) : dispMod d ≠ 3#2 := by cases d <;> simp [dispMod]

theorem dispMod_eq_zero_iff (d : Disp) : dispMod d = 0#2 ↔ d = .none := by cases d <;> simp [dispMod]

@[simp] theorem decodeDisp_dispBytes (d : Disp) (rest : List Byte) (k : Disp → List Byte → Decoded) :
    decodeDisp (dispMod d) (dispBytes d ++ rest) k = k d rest := by
  cases d with
  | none => rfl
  | d8 v => exact takeLE_leBytes 1 v rest fun v => k (.d8 v)
  | d32 v => exact takeLE_leBytes 4 v rest fun v => k (.d32 v)

theorem decodeDisp_eq {mod : BitVec 2} (hm : mod ≠ 3#2) {bs : List Byte} {k : Disp → List Byte → Decoded} {d : Decoded}
    (h : decodeDisp mod bs k = d) (hd : d ≠ .more) :
    ∃ v rest, dispMod v = mod ∧ bs = dispBytes v ++ rest ∧ k v rest = d := by
  unfold decodeDisp at h
  split at h
  · next h0 => exact ⟨.none, bs, h0.symm, rfl, h⟩
  · next h0 =>
    split at h
    · next h1 =>
      obtain ⟨v, rest, hb, hk⟩ := takeLE_eq h hd
      exact ⟨.d8 v, rest, h1.symm, hb, hk⟩
    · next h1 =>
      obtain ⟨v, rest, hb, hk⟩ := takeLE_eq h hd
      have h2 : mod = 2#2 := by bv_omega
      exact ⟨.d32 v, rest, h2.symm, hb, hk⟩

/-- A field decoder whose continuation always decides asks for at most the field's bytes. -/
theorem takeLE_more_of_decided {n : Nat} {bs : List Byte} {k : BitVec (8 * n) → List Byte → Decoded}
    (hk : ∀ v rest, k v rest ≠ .more) (h : takeLE n bs k = .more) : bs.length < n := by
  simpa using takeLE_more (m := 0) (fun v rest hv => absurd hv (hk v rest)) h

theorem decodeDisp_more {mod : BitVec 2} {bs : List Byte} {k : Disp → List Byte → Decoded}
    (hk : ∀ v rest, k v rest ≠ .more) (h : decodeDisp mod bs k = .more) : bs.length < 4 := by
  unfold decodeDisp at h
  split at h
  · exact absurd h (hk _ _)
  · split at h
    · have := takeLE_more_of_decided (fun v rest => hk _ rest) h; omega
    · exact takeLE_more_of_decided (fun v rest => hk _ rest) h

/-! ### SIB -/

theorem wf_base_iff (rm : BitVec 3) (d : Disp) :
    (MemOperand.base rm d).wf = true ↔ rm ≠ 4#3 ∧ ¬ (d = .none ∧ rm = 5#3) := by
  simp [MemOperand.wf, imp_iff_not_or]

theorem wf_sib_iff (sc : BitVec 2) (i b : BitVec 3) (d : Disp) :
    (MemOperand.sib sc i b d).wf = true ↔ ¬ (d = .none ∧ b = 5#3) := by
  simp [MemOperand.wf, imp_iff_not_or]

theorem packFields_surjective (b : Byte) : ∃ hi mid lo, b = packFields hi mid lo :=
  ⟨_, _, _, (packFields_extract b).symm⟩

theorem decodeSib_sib (sc : BitVec 2) (i b : BitVec 3) (d : Disp) (h : ¬ (d = .none ∧ b = 5#3)) (rest : List Byte)
    (k : MemOperand → List Byte → Decoded) :
    decodeSib (dispMod d) (packFields sc i b :: (dispBytes d ++ rest)) k = k (.sib sc i b d) rest := by
  simp [decodeSib, takeByte, dispMod_eq_zero_iff, h]

theorem decodeSib_sibNoBase (sc : BitVec 2) (i : BitVec 3) (d : BitVec 32) (rest : List Byte)
    (k : MemOperand → List Byte → Decoded) :
    decodeSib 0#2 (packFields sc i 5#3 :: (leBytes 4 d ++ rest)) k = k (.sibNoBase sc i d) rest := by
  simp only [decodeSib, takeByte, packFields_lo, and_self, if_true, packFields_hi, packFields_mid]
  exact takeLE_leBytes 4 d rest _

theorem decodeSib_eq {mod : BitVec 2} (hm : mod ≠ 3#2) {bs : List Byte} {k : MemOperand → List Byte → Decoded}
    {d : Decoded} (h : decodeSib mod bs k = d) (hd : d ≠ .more) :
    ∃ o rest, o.wf = true ∧ (∀ reg, packFields mod reg 4#3 :: bs = encodeMem reg o ++ rest) ∧ k o rest = d := by
  match bs with
  | [] => exact absurd h.symm hd
  | sib :: bs =>
    obtain ⟨sc, i, b, rfl⟩ := packFields_surjective sib
    simp only [decodeSib, takeByte, packFields_lo, packFields_hi, packFields_mid] at h
    split at h
    · next h5 =>
      obtain ⟨rfl, rfl⟩ := h5
      obtain ⟨v, rest, rfl, hk⟩ := takeLE_eq h hd
      exact ⟨.sibNoBase sc i v, rest, rfl, fun reg => rfl, hk⟩
    · next h5 =>
      obtain ⟨v, rest, rfl, rfl, hk⟩ := decodeDisp_eq hm h hd
      rw [dispMod_eq_zero_iff] at h5
      exact ⟨.sib sc i b v, rest, (wf_sib_iff sc i b v).mpr h5, fun reg => rfl, hk⟩

theorem decodeSib_more {mod : BitVec 2} {bs : List Byte} {k : MemOperand → List Byte → Decoded}
    (hk : ∀ o rest, k o rest ≠ .more) (h : decodeSib mod bs k = .more) : bs.length < 5 := by
  match bs with
  | [] => simp
  | sib :: bs =>
    simp only [decodeSib, takeByte] at h
    rw [List.length_cons]
    split at h
    · have := takeLE_more_of_decided (fun v rest => hk _ rest) h; omega
    · have := decodeDisp_more (fun v rest => hk _ rest) h; omega

/-! ### ModRM -/

/-- What the register-or-memory operand must meet whatever the form: a memory operand is one the bytes can encode. -/
theorem regMem_wf_none {p : Legacy} {rm : RegMem} (h : rm.wf p = true) : rm.wf .none = true := by
  cases rm with
  | reg r => rfl
  | mem m => exact h

@[simp] theorem decodeModRM_encodeMem {m : MemOperand} (hm : m.wf = true) (reg : BitVec 3) (rest : List Byte)
    (k : BitVec 3 → RegMem → List Byte → Decoded) :
    decodeModRM (encodeMem reg m ++ rest) k = k reg (.mem m) rest := by
  cases m with
  | base rm d =>
    obtain ⟨h4, h5⟩ := (wf_base_iff rm d).mp hm
    simp [decodeModRM, encodeMem, takeByte, h4, dispMod_eq_zero_iff, h5]
  | ripRel d =>
    simp only [decodeModRM, encodeMem, takeByte, List.cons_append, packFields_hi, packFields_mid, packFields_lo]
    exact takeLE_leBytes 4 d rest fun v => k reg (.mem (.ripRel v))
  | sib sc i b d =>
    simp [decodeModRM, encodeMem, takeByte, decodeSib_sib _ _ _ _ ((wf_sib_iff sc i b d).mp hm)]
  | sibNoBase sc i d =>
    simp [decodeModRM, encodeMem, takeByte, decodeSib_sibNoBase]

@[simp] theorem decodeModRM_reg (reg rm : BitVec 3) (rest : List Byte)
    (k : BitVec 3 → RegMem → List Byte → Decoded) :
    decodeModRM (packFields 3#2 reg rm :: rest) k = k reg (.reg rm) rest := by
  simp [decodeModRM, takeByte]

theorem decodeModRM_encodeRegMem {rm : RegMem} (h : rm.wf .none = true) (reg : BitVec 3) (rest : List Byte)
    (k : BitVec 3 → RegMem → List Byte → Decoded) :
    decodeModRM (encodeRegMem reg rm ++ rest) k = k reg rm rest := by
  cases rm with
  | reg r => exact decodeModRM_reg reg r rest k
  | mem m => exact decodeModRM_encodeMem h reg rest k

theorem decodeModRM_eq {bs : List Byte} {k : BitVec 3 → RegMem → List Byte → Decoded} {d : Decoded}
    (h : decodeModRM bs k = d) (hd : d ≠ .more) :
    ∃ reg rm rest, rm.wf .none = true ∧ bs = encodeRegMem reg rm ++ rest ∧ k reg rm rest = d := by
  match bs with
  | [] => exact absurd h.symm hd
  | m :: bs =>
    obtain ⟨mod, reg, rm, rfl⟩ := packFields_surjective m
    simp only [decodeModRM, takeByte, packFields_lo, packFields_hi, packFields_mid] at h
    split at h
    · next h3 => exact ⟨reg, .reg rm, bs, rfl, by rw [h3]; rfl, h⟩
    · next h3 =>
      split at h
      · next h4 =>
        obtain ⟨o, rest, ho, hb, hk⟩ := decodeSib_eq h3 h hd
        exact ⟨reg, .mem o, rest, ho, by rw [h4]; exact hb reg, hk⟩
      · next h4 =>
        split at h
        · next h5 =>
          obtain ⟨rfl, rfl⟩ := h5
          obtain ⟨v, rest, rfl, hk⟩ := takeLE_eq h hd
          exact ⟨reg, .mem (.ripRel v), rest, rfl, rfl, hk⟩
        · next h5 =>
          obtain ⟨v, rest, rfl, rfl, hk⟩ := decodeDisp_eq h3 h hd
          rw [dispMod_eq_zero_iff] at h5
          exact ⟨reg, .mem (.base rm v), rest, (wf_base_iff rm v).mpr ⟨h4, h5⟩, rfl, hk⟩

theorem decodeModRM_more {bs : List Byte} {k : BitVec 3 → RegMem → List Byte → Decoded}
    (hk : ∀ reg rm rest, k reg rm rest ≠ .more) (h : decodeModRM bs k = .more) : bs.length < 6 := by
  match bs with
  | [] => simp
  | m :: bs =>
    simp only [decodeModRM, takeByte] at h
    rw [List.length_cons]
    split at h
    · exact absurd h (hk _ _ _)
    · split at h
      · have := decodeSib_more (fun o rest => hk _ _ rest) h; omega
      · split at h
        · have := takeLE_more_of_decided (fun v rest => hk _ _ rest) h; omega
        · have := decodeDisp_more (fun v rest => hk _ _ rest) h; omega

/-! ### Memory offset -/

theorem decodeMoffs_encodeMoffs {p : Legacy} {off : Moffs} (h : off.wf p = true) (rest : List Byte)
    (k : Moffs → List Byte → Decoded) : decodeMoffs p (encodeMoffs off ++ rest) k = k off rest := by
  cases off with
  | m64 v =>
    have hp : p.hasA32 = false := by simpa [Moffs.wf] using h
    simp only [decodeMoffs, hp, Bool.false_eq_true, if_false]
    exact takeLE_leBytes 8 v rest _
  | m32 v =>
    have hp : p.hasA32 = true := h
    simp only [decodeMoffs, hp, if_true]
    exact takeLE_leBytes 4 v rest _

theorem decodeMoffs_eq {p : Legacy} {bs : List Byte} {k : Moffs → List Byte → Decoded} {d : Decoded}
    (h : decodeMoffs p bs k = d) (hd : d ≠ .more) :
    ∃ off rest, off.wf p = true ∧ bs = encodeMoffs off ++ rest ∧ k off rest = d := by
  unfold decodeMoffs at h
  split at h
  · next hp =>
    obtain ⟨v, rest, hb, hk⟩ := takeLE_eq h hd
    exact ⟨.m32 v, rest, hp, hb, hk⟩
  · next hp =>
    obtain ⟨v, rest, hb, hk⟩ := takeLE_eq h hd
    exact ⟨.m64 v, rest, by simpa [Moffs.wf] using hp, hb, hk⟩

theorem decodeMoffs_more {p : Legacy} {bs : List Byte} {k : Moffs → List Byte → Decoded}
    (hk : ∀ off rest, k off rest ≠ .more) (h : decodeMoffs p bs k = .more) :
    bs.length < if p.hasA32 then 4 else 8 := by
  unfold decodeMoffs at h
  split at h
  · next hp => rw [if_pos hp]; exact takeLE_more_of_decided (fun v rest => hk _ rest) h
  · next hp => rw [if_neg hp]; exact takeLE_more_of_decided (fun v rest => hk _ rest) h

end Sys2Proof.Proofs
end

section
/-! Decoder and encoder are inverse both ways, and what that says of the bytes that decide (30_encoding.md sections 2 to
8; 41_canonical_addressing.md R97). -/

namespace Sys2Proof.Proofs

open Sys2Proof Sys2Proof.Machine

/-! ### The parts of an encoding (R60) -/

/-- The legacy prefixes that LEA carries. -/
def leaLegacy (a32 : Bool) : Legacy := if a32 then .a32 else .none

/-- The legacy prefixes an instruction carries. -/
def legacyOf : Instr → Legacy
  | .lea a32 _ _ _ => leaLegacy a32
  | .movImm64 _ _ _ => .none
  | .movLoadMoffs p _ _ => p
  | .movStoreMoffs p _ _ => p
  | .movLoad p _ _ _ => p
  | .movStore p _ _ _ => p
  | .push _ _ => .none
  | .pop _ _ => .none
  | .jmpRel8 _ _ => .none

/-- The REX byte an instruction carries, if any. -/
def rexOf : Instr → Option Rex
  | .lea _ rex _ _ => some rex
  | .movImm64 rex _ _ => some rex
  | .movLoadMoffs _ rex _ => some rex
  | .movStoreMoffs _ rex _ => some rex
  | .movLoad _ rex _ _ => some rex
  | .movStore _ rex _ _ => some rex
  | .push rex _ => rex
  | .pop rex _ => rex
  | .jmpRel8 rex _ => rex

/-- The opcode of an instruction. -/
def opcodeOf : Instr → Opcode
  | .lea _ _ _ _ => .lea
  | .movImm64 _ rd _ => .movImm64 rd
  | .movLoadMoffs _ _ _ => .movLoadMoffs
  | .movStoreMoffs _ _ _ => .movStoreMoffs
  | .movLoad _ _ _ _ => .movLoad
  | .movStore _ _ _ _ => .movStore
  | .push _ rd => .push rd
  | .pop _ rd => .pop rd
  | .jmpRel8 _ _ => .jmpRel8

/-- The bytes of an instruction after its opcode byte. -/
def operandBytes : Instr → List Byte
  | .lea _ _ reg m => encodeMem reg m
  | .movImm64 _ _ v => leBytes 8 v
  | .movLoadMoffs _ _ off => encodeMoffs off
  | .movStoreMoffs _ _ off => encodeMoffs off
  | .movLoad _ _ reg rm => encodeRegMem reg rm
  | .movStore _ _ reg rm => encodeRegMem reg rm
  | .push _ _ => []
  | .pop _ _ => []
  | .jmpRel8 _ v => leBytes 1 v

/-- The order of R60. -/
theorem encode_eq (i : Instr) :
    encode i = encodeLegacy (legacyOf i) ++ encodeRex? (rexOf i) ++ opcodeByte (opcodeOf i) :: operandBytes i := by
  cases i with
  | lea a32 rex reg m =>
    cases a32 <;> simp [encode, legacyOf, leaLegacy, encodeLegacy, rexOf, encodeRex?, opcodeOf, opcodeByte, operandBytes]
  | _ => simp [encode, legacyOf, encodeLegacy, rexOf, encodeRex?, opcodeOf, opcodeByte, operandBytes]

theorem opcode_opcodeByte (o : Opcode) : opcode? (opcodeByte o) = some o := by
  cases o <;> simp [opcodeByte]

/-! ### The two MOV forms with a ModRM byte (R70 forms 5 and 6) -/

theorem requireNoPrefix_eq {p : Legacy} {k d : Decoded} (h : requireNoPrefix p k = d)
    (hd : d ≠ .refuse .prefixNotAdmitted) : p = .none ∧ k = d := by
  unfold requireNoPrefix at h
  split at h
  · next hp => exact ⟨hp, h⟩
  · exact absurd h.symm hd

theorem requireNoPrefix_refuse_congr {p : Legacy} {k k' : Decoded} {r : Reject}
    (hk : k = .refuse r → k' = .refuse r) (h : requireNoPrefix p k = .refuse r) :
    requireNoPrefix p k' = .refuse r := by
  unfold requireNoPrefix at h ⊢
  split
  · next hp => rw [if_pos hp] at h; exact hk h
  · next hp => rwa [if_neg hp] at h

theorem decodeModRM_refuse_append {bs more : List Byte} {k : BitVec 3 → RegMem → List Byte → Decoded} {r : Reject}
    (hk : ∀ reg rm rest, k reg rm rest = .refuse r → k reg rm (rest ++ more) = .refuse r)
    (h : decodeModRM bs k = .refuse r) : decodeModRM (bs ++ more) k = .refuse r := by
  obtain ⟨reg, rm, rest, hrm, rfl, hr⟩ := decodeModRM_eq h (by simp)
  rw [List.append_assoc, decodeModRM_encodeRegMem hrm]
  exact hk _ _ _ hr

/-- What MOV makes of its ModRM operand: an instruction, which with a register operand takes no legacy bytes. -/
structure ReadsMov (p : Legacy) (mk : BitVec 3 → RegMem → Instr) (k : BitVec 3 → RegMem → List Byte → Decoded) :
    Prop where
  reg : ∀ reg r rest, k reg (.reg r) rest = requireNoPrefix p (.ok (mk reg (.reg r)) rest)
  mem : ∀ reg m rest, k reg (.mem m) rest = .ok (mk reg (.mem m)) rest

namespace ReadsMov

variable {p : Legacy} {mk : BitVec 3 → RegMem → Instr} {k : BitVec 3 → RegMem → List Byte → Decoded}

theorem decode_encode (hk : ReadsMov p mk k) {rm : RegMem} (h : rm.wf p = true) (reg : BitVec 3) (rest : List Byte) :
    decodeModRM (encodeRegMem reg rm ++ rest) k = .ok (mk reg rm) rest := by
  rw [decodeModRM_encodeRegMem (regMem_wf_none h)]
  cases rm with
  | reg r =>
    obtain rfl : p = .none := by simpa [RegMem.wf] using h
    exact hk.reg reg r rest
  | mem m => exact hk.mem reg m rest

theorem ok_inv (hk : ReadsMov p mk k) {bs rest : List Byte} {i : Instr} (h : decodeModRM bs k = .ok i rest) :
    ∃ reg rm, rm.wf p = true ∧ bs = encodeRegMem reg rm ++ rest ∧ mk reg rm = i := by
  obtain ⟨reg, rm, rest', hrm, rfl, hr⟩ := decodeModRM_eq h (by simp)
  cases rm with
  | reg r =>
    rw [hk.reg] at hr
    obtain ⟨rfl, hr⟩ := requireNoPrefix_eq hr (by simp)
    obtain ⟨hi, rfl⟩ := Decoded.ok.inj hr
    exact ⟨reg, .reg r, rfl, rfl, hi⟩
  | mem m =>
    rw [hk.mem] at hr
    obtain ⟨hi, rfl⟩ := Decoded.ok.inj hr
    exact ⟨reg, .mem m, hrm, rfl, hi⟩

theorem refuse_append (hk : ReadsMov p mk k) {bs : List Byte} {r : Reject} (more : List Byte)
    (h : decodeModRM bs k = .refuse r) : decodeModRM (bs ++ more) k = .refuse r :=
  decodeModRM_refuse_append (fun reg rm rest => by
    cases rm with
    | reg s => rw [hk.reg, hk.reg]; exact requireNoPrefix_refuse_congr (by simp)
    | mem m => simp [hk.mem]) h

theorem more_lt (hk : ReadsMov p mk k) {bs : List Byte} (h : decodeModRM bs k = .more) : bs.length < 6 :=
  decodeModRM_more (fun reg rm rest hr => by
    cases rm with
    | reg s =>
      rw [hk.reg] at hr
      simpa using (requireNoPrefix_eq hr (by simp)).2
    | mem m => simp [hk.mem] at hr) h

end ReadsMov

/-! ### Decoding what the encoder writes -/

theorem requireW_some {x : Rex} (h : x.w = true) (k : Rex → Decoded) : requireW (some x) k = k x := if_pos h

theorem requireNoPrefix_none (k : Decoded) : requireNoPrefix .none k = k := rfl

@[simp] theorem leaLegacy_ovr (a32 : Bool) : (leaLegacy a32).ovr = none := by cases a32 <;> rfl

@[simp] theorem leaLegacy_hasA32 (a32 : Bool) : (leaLegacy a32).hasA32 = a32 := by cases a32 <;> rfl

theorem leaLegacy_of_ovr_none {p : Legacy} (h : p.ovr = none) : leaLegacy p.hasA32 = p := by
  cases p <;> simp_all [Legacy.ovr, leaLegacy, Legacy.hasA32]

/-- After its first bytes, each form is read back from its operand's bytes. -/
theorem decodeOpcode_encode {i : Instr} (hw : i.WellFormed) (rest : List Byte) :
    decodeOpcode (legacyOf i) (rexOf i) (opcodeByte (opcodeOf i)) (operandBytes i ++ rest) = .ok i rest := by
  unfold decodeOpcode
  rw [opcode_opcodeByte]
  cases i with
  | lea a32 rex reg m =>
    obtain ⟨hr, hm⟩ := Bool.and_eq_true_iff.mp hw
    simp [legacyOf, rexOf, opcodeOf, operandBytes, requireW_some hr, decodeModRM_encodeMem hm]
  | movImm64 rex rd v =>
    simp only [legacyOf, rexOf, opcodeOf, operandBytes, requireNoPrefix_none, requireW_some hw]
    exact takeLE_leBytes 8 v rest _
  | movLoadMoffs p rex off =>
    obtain ⟨hr, ho⟩ := Bool.and_eq_true_iff.mp hw
    simp [legacyOf, rexOf, opcodeOf, operandBytes, requireW_some hr, decodeMoffs_encodeMoffs ho]
  | movStoreMoffs p rex off =>
    obtain ⟨hr, ho⟩ := Bool.and_eq_true_iff.mp hw
    simp [legacyOf, rexOf, opcodeOf, operandBytes, requireW_some hr, decodeMoffs_encodeMoffs ho]
  | movLoad p rex reg rm =>
    obtain ⟨hr, hm⟩ := Bool.and_eq_true_iff.mp hw
    exact (requireW_some hr _).trans (ReadsMov.decode_encode ⟨fun _ _ _ => rfl, fun _ _ _ => rfl⟩ hm reg rest)
  | movStore p rex reg rm =>
    obtain ⟨hr, hm⟩ := Bool.and_eq_true_iff.mp hw
    exact (requireW_some hr _).trans (ReadsMov.decode_encode ⟨fun _ _ _ => rfl, fun _ _ _ => rfl⟩ hm reg rest)
  | push rex rd => rfl
  | pop rex rd => rfl
  | jmpRel8 rex v =>
    simp only [legacyOf, rexOf, opcodeOf, operandBytes, requireNoPrefix_none]
    exact takeLE_leBytes 1 v rest _

/-- Settles O1: the first bytes and the opcode are read back, then the operand of the form. -/
theorem decodeOfEncode : Obligations.DecodeOfEncode := by
  intro i rest hw
  have hfront := no_prefix_of_opcode (opcode_opcodeByte (opcodeOf i))
  calc decode (encode i ++ rest)
      = decode (encodeLegacy (legacyOf i) ++ encodeRex? (rexOf i) ++
          opcodeByte (opcodeOf i) :: (operandBytes i ++ rest)) := by rw [encode_eq, List.append_assoc]; rfl
    _ = decodeOpcode (legacyOf i) (rexOf i) (opcodeByte (opcodeOf i)) (operandBytes i ++ rest) :=
        decode_front hfront _ _ _
    _ = .ok i rest := decodeOpcode_encode hw rest

theorem decode_encode {i : Instr} (h : i.WellFormed) : decode (encode i) = .ok i [] := by
  simpa using decodeOfEncode i [] h

/-! ### Encoding what the decoder reads -/

theorem requireW_eq {rex : Option Rex} {k : Rex → Decoded} {d : Decoded} (h : requireW rex k = d)
    (hd : d ≠ .refuse .operandSize32) : ∃ x, rex = some x ∧ x.w = true ∧ k x = d := by
  unfold requireW at h
  split at h
  · next x =>
    split at h
    · next hw => exact ⟨x, rfl, hw, h⟩
    · exact absurd h.symm hd
  · exact absurd h.symm hd

theorem takeLE_ok_inv {n : Nat} {bs rest : List Byte} {mk : BitVec (8 * n) → Instr} {i : Instr}
    (h : takeLE n bs (fun v rest => .ok (mk v) rest) = .ok i rest) : ∃ v, bs = leBytes n v ++ rest ∧ mk v = i := by
  obtain ⟨v, rest', rfl, hk⟩ := takeLE_eq h (by simp)
  obtain ⟨hi, rfl⟩ := Decoded.ok.inj hk
  exact ⟨v, rfl, hi⟩

theorem decodeMoffs_ok_inv {p : Legacy} {bs rest : List Byte} {mk : Moffs → Instr} {i : Instr}
    (h : decodeMoffs p bs (fun off rest => .ok (mk off) rest) = .ok i rest) :
    ∃ off, off.wf p = true ∧ bs = encodeMoffs off ++ rest ∧ mk off = i := by
  obtain ⟨off, rest', hoff, rfl, hk⟩ := decodeMoffs_eq h (by simp)
  obtain ⟨hi, rfl⟩ := Decoded.ok.inj hk
  exact ⟨off, hoff, rfl, hi⟩

/-- An instruction that an opcode byte and the bytes after it decode to is well-formed and has these parts. -/
theorem decodeOpcode_ok {p : Legacy} {rex : Option Rex} {op : Byte} {bs rest : List Byte} {i : Instr}
    (h : decodeOpcode p rex op bs = .ok i rest) :
    i.WellFormed ∧ legacyOf i = p ∧ rexOf i = rex ∧ opcode? op = some (opcodeOf i) ∧ bs = operandBytes i ++ rest := by
  unfold decodeOpcode at h
  cases ho : opcode? op with
  | none => simp [ho] at h
  | some o =>
    cases o with (simp only [ho] at h)
    | lea =>
      split at h
      · simp at h
      · next hovr =>
        obtain ⟨x, rfl, hx, h⟩ := requireW_eq h (by simp)
        obtain ⟨reg, rm, rest', hrm, rfl, hk⟩ := decodeModRM_eq h (by simp)
        cases rm with
        | reg r => simp at hk
        | mem m =>
          obtain ⟨rfl, rfl⟩ := Decoded.ok.inj hk
          exact ⟨Bool.and_eq_true_iff.mpr ⟨hx, hrm⟩, leaLegacy_of_ovr_none (by simpa using hovr), rfl, rfl, rfl⟩
    | movImm64 rd =>
      obtain ⟨rfl, h⟩ := requireNoPrefix_eq h (by simp)
      obtain ⟨x, rfl, hx, h⟩ := requireW_eq h (by simp)
      obtain ⟨v, rfl, rfl⟩ := takeLE_ok_inv h
      exact ⟨hx, rfl, rfl, rfl, rfl⟩
    | movLoadMoffs =>
      obtain ⟨x, rfl, hx, h⟩ := requireW_eq h (by simp)
      obtain ⟨off, hoff, rfl, rfl⟩ := decodeMoffs_ok_inv h
      exact ⟨Bool.and_eq_true_iff.mpr ⟨hx, hoff⟩, rfl, rfl, rfl, rfl⟩
    | movStoreMoffs =>
      obtain ⟨x, rfl, hx, h⟩ := requireW_eq h (by simp)
      obtain ⟨off, hoff, rfl, rfl⟩ := decodeMoffs_ok_inv h
      exact ⟨Bool.and_eq_true_iff.mpr ⟨hx, hoff⟩, rfl, rfl, rfl, rfl⟩
    | movLoad =>
      obtain ⟨x, rfl, hx, h⟩ := requireW_eq h (by simp)
      obtain ⟨reg, rm, hrm, rfl, rfl⟩ := ReadsMov.ok_inv (mk := Instr.movLoad p x)
        ⟨fun _ _ _ => rfl, fun _ _ _ => rfl⟩ h
      exact ⟨Bool.and_eq_true_iff.mpr ⟨hx, hrm⟩, rfl, rfl, rfl, rfl⟩
    | movStore =>
      obtain ⟨x, rfl, hx, h⟩ := requireW_eq h (by simp)
      obtain ⟨reg, rm, hrm, rfl, rfl⟩ := ReadsMov.ok_inv (mk := Instr.movStore p x)
        ⟨fun _ _ _ => rfl, fun _ _ _ => rfl⟩ h
      exact ⟨Bool.and_eq_true_iff.mpr ⟨hx, hrm⟩, rfl, rfl, rfl, rfl⟩
    | push rd =>
      obtain ⟨rfl, h⟩ := requireNoPrefix_eq h (by simp)
      obtain ⟨rfl, rfl⟩ := Decoded.ok.inj h
      exact ⟨rfl, rfl, rfl, rfl, rfl⟩
    | pop rd =>
      obtain ⟨rfl, h⟩ := requireNoPrefix_eq h (by simp)
      obtain ⟨rfl, rfl⟩ := Decoded.ok.inj h
      exact ⟨rfl, rfl, rfl, rfl, rfl⟩
    | jmpRel8 =>
      obtain ⟨rfl, h⟩ := requireNoPrefix_eq h (by simp)
      obtain ⟨v, rfl, rfl⟩ := takeLE_ok_inv h
      exact ⟨rfl, rfl, rfl, rfl, rfl⟩

/-- Settles O2: of the four fronts only an opcode gives an instruction, and it has the parts that were read. -/
theorem encodeOfDecode : Obligations.EncodeOfDecode := by
  intro bs rest i h
  cases front bs with
  | short p rex => simp [decode_short] at h
  | badLegacy p b k bs hb hk => simp [decode_badLegacy hb hk] at h
  | misplaced p x b bs hb => simp [decode_misplaced hb] at h
  | opcode p rex op bs hop =>
    rw [decode_front hop] at h
    obtain ⟨hw, rfl, rfl, ho, rfl⟩ := decodeOpcode_ok h
    exact ⟨hw, by rw [encode_eq, opcodeByte_of_opcode ho]; simp⟩

/-! ### Bytes that decide a refusal -/

theorem requireW_of_not_w {rex : Option Rex} (h : ∀ x, rex = some x → x.w = false) (k : Rex → Decoded) :
    requireW rex k = .refuse .operandSize32 := by
  cases rex with
  | none => rfl
  | some x => simp [requireW, h x rfl]

theorem requireW_refuse_congr {rex : Option Rex} {k k' : Rex → Decoded} {r : Reject}
    (hk : ∀ x, k x = .refuse r → k' x = .refuse r) (h : requireW rex k = .refuse r) : requireW rex k' = .refuse r := by
  cases rex with
  | none => exact h
  | some x =>
    cases hw : x.w with
    | false => rwa [requireW_of_not_w (by simpa using hw)] at h ⊢
    | true =>
      rw [requireW_some hw] at h ⊢
      exact hk x h

theorem takeLE_ne_refuse {n : Nat} {bs : List Byte} {i : BitVec (8 * n) → Instr} {r : Reject} :
    takeLE n bs (fun v rest => .ok (i v) rest) ≠ .refuse r := fun h => by
  obtain ⟨v, rest, -, hk⟩ := takeLE_eq h (by simp)
  simp at hk

theorem decodeMoffs_ne_refuse {p : Legacy} {bs : List Byte} {i : Moffs → Instr} {r : Reject} :
    decodeMoffs p bs (fun off rest => .ok (i off) rest) ≠ .refuse r := fun h => by
  obtain ⟨v, rest, -, -, hk⟩ := decodeMoffs_eq h (by simp)
  simp at hk

theorem decodeOpcode_refuse_append {p : Legacy} {rex : Option Rex} {op : Byte} {bs : List Byte} {r : Reject}
    (more : List Byte) (h : decodeOpcode p rex op bs = .refuse r) :
    decodeOpcode p rex op (bs ++ more) = .refuse r := by
  unfold decodeOpcode at h ⊢
  cases ho : opcode? op with
  | none => simpa [ho] using h
  | some o =>
    cases o with (simp only [ho] at h ⊢)
    | lea =>
      split
      · next hp => simpa [hp] using h
      · next hp =>
        rw [if_neg hp] at h
        refine requireW_refuse_congr (fun x => decodeModRM_refuse_append fun reg rm rest => ?_) h
        cases rm <;> simp
    | movImm64 rd =>
      exact requireNoPrefix_refuse_congr (requireW_refuse_congr fun x hx => absurd hx takeLE_ne_refuse) h
    | movLoadMoffs => exact requireW_refuse_congr (fun x hx => absurd hx decodeMoffs_ne_refuse) h
    | movStoreMoffs => exact requireW_refuse_congr (fun x hx => absurd hx decodeMoffs_ne_refuse) h
    | movLoad =>
      exact requireW_refuse_congr (fun x => ReadsMov.refuse_append (mk := Instr.movLoad p x)
        ⟨fun _ _ _ => rfl, fun _ _ _ => rfl⟩ more) h
    | movStore =>
      exact requireW_refuse_congr (fun x => ReadsMov.refuse_append (mk := Instr.movStore p x)
        ⟨fun _ _ _ => rfl, fun _ _ _ => rfl⟩ more) h
    | push rd => exact requireNoPrefix_refuse_congr (by simp) h
    | pop rd => exact requireNoPrefix_refuse_congr (by simp) h
    | jmpRel8 => exact requireNoPrefix_refuse_congr (fun hx => absurd hx takeLE_ne_refuse) h

/-- Settles O4: a refused front is refused whatever follows, and after an opcode the reason stands in the bytes read. -/
theorem refusalIsDecidedOnce : Obligations.RefusalIsDecidedOnce := by
  intro bs more r h
  cases front bs with
  | short p rex => simp [decode_short] at h
  | badLegacy p b k bs hb hk =>
    rw [List.append_assoc, List.cons_append, decode_badLegacy hb hk]
    rwa [decode_badLegacy hb hk] at h
  | misplaced p x b bs hb =>
    rw [List.append_assoc, List.cons_append, List.cons_append, decode_misplaced hb]
    rwa [decode_misplaced hb] at h
  | opcode p rex op bs hop =>
    rw [List.append_assoc _ (op :: bs), List.cons_append, decode_front hop]
    rw [decode_front hop] at h
    exact decodeOpcode_refuse_append more h

/-! ### Bytes that decide nothing -/

/-- Bytes that decode to an instruction decode to it whatever follows. -/
theorem decode_ok_append {bs rest : List Byte} {i : Instr} (h : decode bs = .ok i rest) (more : List Byte) :
    decode (bs ++ more) = .ok i (rest ++ more) := by
  obtain ⟨hw, rfl⟩ := encodeOfDecode _ _ _ h
  rw [List.append_assoc]
  exact decodeOfEncode i _ hw

/-- The first bytes of an encoding, some of it missing, make the decoder ask for more: had they decided, the whole
would have decided the same. -/
theorem decode_of_missing {i : Instr} {bs missing : List Byte} (hw : i.WellFormed) (he : encode i = bs ++ missing)
    (hm : missing ≠ []) : decode bs = .more := by
  have hwhole : decode (bs ++ missing) = .ok i [] := he ▸ decode_encode hw
  cases h : decode bs with
  | more => rfl
  | refuse r => simp [refusalIsDecidedOnce _ missing _ h] at hwhole
  | ok j rest =>
    have hj : rest ++ missing = [] := by
      rw [decode_ok_append h] at hwhole
      exact (Decoded.ok.inj hwhole).2
    exact absurd (List.append_eq_nil_iff.mp hj).2 hm

/-- Settles O3: the bytes that a proper beginning leaves out are missing. -/
theorem properPrefixDecidesNothing : Obligations.ProperPrefixDecidesNothing := by
  intro i n hw hn
  refine decode_of_missing hw (List.take_append_drop n (encode i)).symm fun h => ?_
  exact absurd (List.drop_eq_nil_iff.mp h) (Nat.not_le_of_lt hn)

theorem encodeLegacy_length_none : (encodeLegacy .none).length = 0 := rfl

theorem encodeLegacy_length_le (p : Legacy) : (encodeLegacy p).length ≤ 2 := by cases p <;> simp [encodeLegacy]

/-- An offset is shorter by more than the `67H` that makes it so. -/
theorem decodeMoffs_front_more {p : Legacy} {bs : List Byte} {k : Moffs → List Byte → Decoded}
    (hk : ∀ off rest, k off rest ≠ .more) (h : decodeMoffs p bs k = .more) :
    (encodeLegacy p).length + bs.length < 9 := by
  have hp := Laws.encodeLegacy_length p
  have hbs := decodeMoffs_more hk h
  split at hp <;> split at hbs <;> omega

theorem decodeOpcode_more {p : Legacy} {rex : Option Rex} {op : Byte} {bs : List Byte}
    (h : decodeOpcode p rex op bs = .more) : (encodeLegacy p).length + bs.length < 9 := by
  have hp := encodeLegacy_length_le p
  unfold decodeOpcode at h
  cases ho : opcode? op with
  | none => simp [ho] at h
  | some o =>
    cases o with (simp only [ho] at h)
    | lea =>
      split at h
      · simp at h
      · obtain ⟨x, -, -, h⟩ := requireW_eq h (by simp)
        have := decodeModRM_more (fun reg rm rest => by cases rm <;> simp) h
        omega
    | movImm64 rd =>
      obtain ⟨rfl, h⟩ := requireNoPrefix_eq h (by simp)
      obtain ⟨x, -, -, h⟩ := requireW_eq h (by simp)
      have := takeLE_more_of_decided (by simp) h
      rw [encodeLegacy_length_none]; omega
    | movLoadMoffs =>
      obtain ⟨x, -, -, h⟩ := requireW_eq h (by simp)
      exact decodeMoffs_front_more (by simp) h
    | movStoreMoffs =>
      obtain ⟨x, -, -, h⟩ := requireW_eq h (by simp)
      exact decodeMoffs_front_more (by simp) h
    | movLoad =>
      obtain ⟨x, -, -, h⟩ := requireW_eq h (by simp)
      have := ReadsMov.more_lt (mk := Instr.movLoad p x) ⟨fun _ _ _ => rfl, fun _ _ _ => rfl⟩ h
      omega
    | movStore =>
      obtain ⟨x, -, -, h⟩ := requireW_eq h (by simp)
      have := ReadsMov.more_lt (mk := Instr.movStore p x) ⟨fun _ _ _ => rfl, fun _ _ _ => rfl⟩ h
      omega
    | push rd => exact absurd (requireNoPrefix_eq h (by simp)).2 (by simp)
    | pop rd => exact absurd (requireNoPrefix_eq h (by simp)).2 (by simp)
    | jmpRel8 =>
      obtain ⟨-, h⟩ := requireNoPrefix_eq h (by simp)
      have := takeLE_more_of_decided (by simp) h
      omega

/-- R60: the longest instruction has eleven bytes. -/
theorem length_of_decode_more {bs : List Byte} (h : decode bs = .more) : bs.length < 11 := by
  cases front bs with
  | short p rex =>
    have := encodeLegacy_length_le p
    have := Laws.encodeRex?_length rex
    rw [List.length_append]; omega
  | badLegacy p b k bs hb hk => simp [decode_badLegacy hb hk] at h
  | misplaced p x b bs hb => simp [decode_misplaced hb] at h
  | opcode p rex op bs hop =>
    rw [decode_front hop] at h
    have := decodeOpcode_more h
    have := Laws.encodeRex?_length rex
    simp only [List.length_append, List.length_cons]; omega

/-! ### The fetch never spends its fuel (entry 15) -/

theorem admitted_ne_instructionTooLong {s : State} {p : Params} {x : Exc} {a n : Nat} {k : Result}
    (hk : k ≠ .refused .instructionTooLong) :
    s.admitted (checkBytes p x a n) k ≠ .refused .instructionTooLong := by
  cases hc : checkBytes p x a n with
  | ok => exact hk
  | raise y b => simp [State.admitted]
  | refuse r => simp [State.admitted, ((checkBytes_refuse_iff _ _ _ _ _).mp hc).1]
  | stuck b => simp [State.admitted]

theorem inMode64_ne_instructionTooLong {s : State} {k : Result} (hk : k ≠ .refused .instructionTooLong) :
    s.inMode64 k ≠ .refused .instructionTooLong := by
  unfold State.inMode64
  split
  · exact hk
  · simp

theorem exec_ne_instructionTooLong (i : Instr) (s : State) : exec i s ≠ .refused .instructionTooLong := by
  rw [exec_eq]
  refine inMode64_ne_instructionTooLong ?_
  cases dataRef s i with
  | none => simp
  | some ref =>
    refine admitted_ne_instructionTooLong ?_
    split <;> simp

/-- While the decoder asks for more, fewer than eleven bytes are fetched, and so fuel is left. -/
theorem fetchFrom_ne_instructionTooLong (s : State) (fuel : Nat) (got : List Byte)
    (hf : 12 ≤ fuel + got.length) (h0 : 0 < fuel) :
    fetchFrom s (fun i => exec i s) fuel got ≠ .refused .instructionTooLong := by
  induction fuel generalizing got with
  | zero => exact absurd h0 (by simp)
  | succ fuel ih =>
    unfold fetchFrom
    cases hd : decode got with
    | ok i rest => exact exec_ne_instructionTooLong i s
    | refuse r => simp
    | more =>
      have := length_of_decode_more hd
      exact admitted_ne_instructionTooLong (ih _ (by rw [List.length_append, List.length_singleton]; omega) (by omega))

theorem step_ne_instructionTooLong (s : State) : step s ≠ .refused .instructionTooLong := by
  unfold step whenRunning
  split
  · simp
  · refine inMode64_ne_instructionTooLong ?_
    split
    · simp
    · split
      · simp
      · split
        · simp
        · exact fetchFrom_ne_instructionTooLong s _ [] (by decide) (by decide)

/-- Settles O5: the bound on bytes that do not decide, which keeps the fetch inside its fuel. -/
theorem decoderAsksForElevenBytesAtMost : Obligations.DecoderAsksForElevenBytesAtMost :=
  ⟨fun _ => length_of_decode_more, step_ne_instructionTooLong⟩

end Sys2Proof.Proofs
end

section
/-! The refusals by name, and the order of their reasons (30_encoding.md R61, R62, R69, R72; entry 12). -/

namespace Sys2Proof.Proofs

open Sys2Proof Sys2Proof.Machine

/-! ### Legacy bytes (R61) -/

theorem addPrefix_refused (p : Legacy) : addPrefix p .refused = none := by cases p <;> rfl

theorem addPrefix_second_seg {p : Legacy} (h : p.ovr ≠ none) (g : Seg) : addPrefix p (.seg g) = none := by
  cases p <;> simp_all [Legacy.ovr, addPrefix]

theorem addPrefix_second_a32 {p : Legacy} (h : p.hasA32 = true) : addPrefix p .a32 = none := by
  cases p <;> simp_all [Legacy.hasA32, addPrefix]

theorem prefixByte_never_admitted {b : Byte} (h : b ∈ [0x66#8, 0xF0#8, 0xF2#8, 0xF3#8]) :
    prefixByte b = some .refused := by
  revert b; decide

/-! ### Opcodes by their byte -/

/-- The forms that take no legacy byte at all (R61, R70). -/
def bareOpcode : Opcode → Bool
  | .movImm64 _ => true
  | .push _ => true
  | .pop _ => true
  | .jmpRel8 => true
  | .lea => false
  | .movLoadMoffs => false
  | .movStoreMoffs => false
  | .movLoad => false
  | .movStore => false

theorem any_bareOpcode_of_byte (op : Byte)
    (h : op = 0xEB ∨ 0x50 ≤ op.toNat ∧ op.toNat ≤ 0x5F ∨ 0xB8 ≤ op.toNat ∧ op.toNat ≤ 0xBF) :
    (opcode? op).any bareOpcode = true := by
  revert op; decide

theorem opcode_of_B8_to_BF (op : Byte) (h : 0xB8 ≤ op.toNat ∧ op.toNat ≤ 0xBF) :
    opcode? op = some (.movImm64 (op.extractLsb' 0 3)) := by
  revert op; decide

theorem decodeOpcode_bare {op : Byte} {o : Opcode} (ho : opcode? op = some o) (hb : bareOpcode o = true) {p : Legacy}
    (hp : p ≠ .none) (rex : Option Rex) (bs : List Byte) :
    decodeOpcode p rex op bs = .refuse .prefixNotAdmitted := by
  unfold decodeOpcode
  cases o <;> simp_all [bareOpcode, requireNoPrefix]

theorem decodeOpcode_lea_ovr {p : Legacy} (hp : p.ovr ≠ none) (rex : Option Rex) (bs : List Byte) :
    decodeOpcode p rex 0x8D#8 bs = .refuse .prefixNotAdmitted := by
  simp [decodeOpcode, Option.isSome_iff_ne_none, hp]

/-- Settles O7: a legacy byte that cannot be added, then the two kinds of opcode that look at the legacy bytes first. -/
theorem unadmittedPrefixesAreRefused : Obligations.UnadmittedPrefixesAreRefused := by
  intro p bs
  refine ⟨fun b hb => ?never, fun hp g => ?secondSeg, fun hp => ?secondA32, fun hp rex => ?lea,
    fun hp rex op hop => ?bare⟩
  case never => exact decode_badLegacy (prefixByte_never_admitted hb) (addPrefix_refused p) bs
  case secondSeg => exact decode_badLegacy (prefixByte_segPrefix g) (addPrefix_second_seg hp g) bs
  case secondA32 => exact decode_badLegacy prefixByte_67 (addPrefix_second_a32 hp) bs
  case lea => rw [decode_front (no_prefix_of_opcode opcode_lea), decodeOpcode_lea_ovr hp]
  case bare =>
    obtain ⟨o, ho, hb⟩ := (Option.any_eq_true _ _).mp (any_bareOpcode_of_byte op hop)
    rw [decode_front (no_prefix_of_opcode ho), decodeOpcode_bare ho hb hp]

/-! ### REX (R62, R69) -/

/-- Settles O8: each byte listed is a legacy byte or a REX byte. -/
theorem misplacedRexIsRefused : Obligations.MisplacedRexIsRefused := by
  intro p x b bs hb
  refine decode_misplaced ?_ p x bs
  revert b; decide

theorem decodeOpcode_needs_w {p : Legacy} {rex : Option Rex} {op : Byte} (hw : ∀ x, rex = some x → x.w = false)
    (hop : op ∈ [0xA1#8, 0xA3#8, 0x8B#8, 0x89#8] ∨ op = 0x8D ∧ p.ovr = none ∨
      0xB8 ≤ op.toNat ∧ op.toNat ≤ 0xBF ∧ p = .none) (bs : List Byte) :
    (∃ o, opcode? op = some o) ∧ decodeOpcode p rex op bs = .refuse .operandSize32 := by
  rcases hop with hop | ⟨rfl, hp⟩ | ⟨hlo, hhi, rfl⟩
  · simp only [List.mem_cons, List.not_mem_nil, or_false] at hop
    rcases hop with rfl | rfl | rfl | rfl <;> exact ⟨⟨_, rfl⟩, requireW_of_not_w hw _⟩
  · refine ⟨⟨_, rfl⟩, ?_⟩
    simp [decodeOpcode, hp, requireW_of_not_w hw]
  · have ho := opcode_of_B8_to_BF op ⟨hlo, hhi⟩
    refine ⟨⟨_, ho⟩, ?_⟩
    simp [decodeOpcode, ho, requireNoPrefix, requireW_of_not_w hw]

/-- Settles O9: each opcode listed asks for `REX.W` before it reads a further byte. -/
theorem thirtyTwoBitFormsAreRefused : Obligations.ThirtyTwoBitFormsAreRefused := by
  intro p rex op bs hw hop
  obtain ⟨⟨o, ho⟩, hd⟩ := decodeOpcode_needs_w hw hop bs
  rw [decode_front (no_prefix_of_opcode ho), hd]

/-! ### Other opcodes, and register operands (R70, R72) -/

theorem no_front_no_opcode_of_other (op : Byte)
    (h : op ∉ [0x26#8, 0x2E#8, 0x36#8, 0x3E#8, 0x64#8, 0x65#8, 0x66#8, 0x67#8, 0xF0#8, 0xF2#8, 0xF3#8, 0x8D#8, 0xA1#8,
      0xA3#8, 0x8B#8, 0x89#8, 0xEB#8])
    (h45 : ¬ (0x40 ≤ op.toNat ∧ op.toNat ≤ 0x5F)) (hB : ¬ (0xB8 ≤ op.toNat ∧ op.toNat ≤ 0xBF)) :
    (prefixByte op = none ∧ rexByte? op = none) ∧ opcode? op = none := by
  revert op; decide

/-- Settles O10: such a byte stands where the opcode is looked for, and the opcode map has no row for it. -/
theorem otherOpcodesAreRefused : Obligations.OtherOpcodesAreRefused := by
  intro p rex op bs h h45 hB
  obtain ⟨hfront, ho⟩ := no_front_no_opcode_of_other op h h45 hB
  rw [decode_front hfront]
  simp [decodeOpcode, ho]

/-- Settles O11: with `REX.W = 1` the ModRM byte is read, and its register operand is what is refused. -/
theorem registerFormsRefuseByName : Obligations.RegisterFormsRefuseByName := by
  intro p r x b reg rm bs
  refine ⟨fun hp => ?lea, fun hp op hop => ?mov⟩
  case lea =>
    rw [decode_front_rex opcode_lea]
    simp [decodeOpcode, hp, requireW]
  case mov =>
    simp only [List.mem_cons, List.not_mem_nil, or_false] at hop
    rcases hop with rfl | rfl
    · rw [decode_front_rex opcode_movLoad]
      simp [decodeOpcode, requireW, requireNoPrefix, hp]
    · rw [decode_front_rex opcode_movStore]
      simp [decodeOpcode, requireW, requireNoPrefix, hp]

end Sys2Proof.Proofs
end

section
/-! The reference of each operand encoding (30_encoding.md R61 to R68; 40_address_calculation.md R73), and worked
encodings. -/

namespace Sys2Proof.Proofs

open Sys2Proof Sys2Proof.Machine

/-- Settles O6: each sequence by evaluation. -/
theorem workedEncodingsDecode : Obligations.WorkedEncodingsDecode := by
  unfold Obligations.WorkedEncodingsDecode
  decide

/-! ### Register numbers -/

theorem regNum_toNat (hi : Bool) (lo : BitVec 3) : (regNum hi lo).toNat = 8 * hi.toNat + lo.toNat := by
  revert hi lo; decide

theorem regNum_eq_rsp_iff (hi : Bool) (lo : BitVec 3) : regNum hi lo = Reg.rsp ↔ hi = false ∧ lo = 4#3 := by
  revert hi lo; decide

theorem regNum_eq_rbp_iff (hi : Bool) (lo : BitVec 3) : regNum hi lo = Reg.rbp ↔ hi = false ∧ lo = 5#3 := by
  revert hi lo; decide

theorem indexReg_ne_rsp (x : Bool) (i : BitVec 3) : indexReg x i ≠ some Reg.rsp := by
  revert x i; decide

/-- Settles O12: `rm = 100` stands for a SIB byte, and 101 without a displacement for no base register. -/
theorem stackBaseEncodings : Obligations.StackBaseEncodings := by
  intro rex asz ovr m hm
  cases m with
  | base rm d =>
    obtain ⟨h4, h5⟩ := (wf_base_iff rm d).mp hm
    have hd : rm = 5#3 → d ≠ .none := fun hrm hd => h5 ⟨hd, hrm⟩
    refine ⟨?rsp, ?rbp, ?index⟩
    case rsp => simp [memRef, regNum_eq_rsp_iff, h4]
    case rbp => simpa [memRef, regNum_eq_rbp_iff] using fun _ => hd
    case index => simp [memRef]
  | ripRel d => simp [memRef]
  | sib sc i b d =>
    have hd : b = 5#3 → d ≠ .none := fun hb hd => (wf_sib_iff sc i b d).mp hm ⟨hd, hb⟩
    refine ⟨?rsp, ?rbp, ?index⟩
    case rsp => simp [memRef, regNum_eq_rsp_iff]
    case rbp => simpa [memRef, regNum_eq_rbp_iff] using fun _ => hd
    case index => exact indexReg_ne_rsp rex.x i
  | sibNoBase sc i d =>
    refine ⟨?rsp, ?rbp, ?index⟩
    case rsp => simp [memRef]
    case rbp => simp [memRef]
    case index => exact indexReg_ne_rsp rex.x i

/-! ### References in numbers -/

theorem hasA32_iff_mem (p : Legacy) : p.hasA32 = true ↔ 0x67#8 ∈ encodeLegacy p := by
  have hg : ∀ g, 0x67#8 ≠ segPrefix g := by intro g; cases g <;> decide
  cases p <;> simp [Legacy.hasA32, encodeLegacy, hg]

theorem segPrefix_injective {g h : Seg} (e : segPrefix g = segPrefix h) : g = h := by
  have := congrArg prefixByte e
  simpa using this

theorem ovr_eq_iff_mem (p : Legacy) (g : Seg) : p.ovr = some g ↔ segPrefix g ∈ encodeLegacy p := by
  have hg : segPrefix g ≠ 0x67#8 := by cases g <;> decide
  have hseg : ∀ h : Seg, segPrefix g = segPrefix h ↔ h = g := fun h =>
    ⟨fun e => (segPrefix_injective e).symm, fun e => by rw [e]⟩
  cases p <;> simp [Legacy.ovr, encodeLegacy, hg, hseg]

theorem dispIs_dispValue (d : Disp) : DispIs d (dispValue d) := by
  cases d with
  | none => rfl
  | d8 v => exact BitVec.toInt_signExtend_of_le (by decide)
  | d32 v => exact BitVec.toInt_signExtend_of_le (by decide)

theorem scaleOf_factor (sc : BitVec 2) : (scaleOf sc).factor.toNat = 2 ^ sc.toNat := by
  revert sc; decide

theorem indexIs_of_fields {x : Bool} {i : BitVec 3} {sc : BitVec 2} {ref : Ref} (hi : ref.index = indexReg x i)
    (hs : ref.scale = indexScale x i sc) : IndexIs x i sc ref := by
  have h4 : 8 * x.toNat + i.toNat = 4 ↔ regNum x i = Reg.rsp := by
    rw [← regNum_toNat, ← BitVec.toNat_inj]; rfl
  unfold IndexIs
  split
  · next h => simp [hi, hs, indexScale, indexReg, h4.mp h]
  · next h =>
    have hne : regNum x i ≠ Reg.rsp := fun e => h (h4.mpr e)
    exact ⟨⟨_, regNum_toNat x i, by simp [hi, indexReg, hne]⟩, by simp [hs, indexScale, indexReg, hne, scaleOf_factor]⟩

/-- Settles O13: register numbers and legacy bytes, then the fields of `memRef` and `moffsRef` one by one. -/
theorem referenceOfEachEncoding : Obligations.ReferenceOfEachEncoding := by
  refine ⟨regNum_toNat, fun p => ⟨hasA32_iff_mem p, ovr_eq_iff_mem p⟩, fun rex asz ovr => ?mem, fun p off => ?moffs⟩
  case mem =>
    have hbase : ∀ {f : BitVec 3} {ref : Ref}, ref.base = .reg (regNum rex.b f) → BaseIs rex.b f ref :=
      fun h => ⟨_, regNum_toNat _ _, h⟩
    refine ⟨fun m => ?same, fun rm d => ?base, fun d => ?ripRel, fun sc i b d => ?sib, fun sc i d => ?sibNoBase⟩
    case same => cases m <;> exact ⟨rfl, rfl, rfl⟩
    case base => exact ⟨hbase rfl, ⟨rfl, rfl⟩, dispIs_dispValue d⟩
    case ripRel => exact ⟨rfl, ⟨rfl, rfl⟩, dispIs_dispValue (.d32 d)⟩
    case sib => exact ⟨hbase rfl, indexIs_of_fields rfl rfl, dispIs_dispValue d⟩
    case sibNoBase => exact ⟨rfl, indexIs_of_fields rfl rfl, dispIs_dispValue (.d32 d)⟩
  case moffs =>
    refine ⟨rfl, ⟨rfl, rfl⟩, rfl, rfl, rfl, ?long, ?short⟩
    case long => rintro v rfl; rfl
    case short =>
      rintro v rfl
      exact BitVec.toNat_setWidth_of_le (by decide)

end Sys2Proof.Proofs
end

section
/-! Effective and linear addresses (40_address_calculation.md sections 2 and 3), in 64-bit mode and outside it. -/

namespace Sys2Proof.Proofs

open Sys2Proof Sys2Proof.Machine

theorem asize_bits_le (a : ASize) : a.bits ≤ 64 := by cases a <;> decide

theorem asize_bits_le_of_ne_a64 {a : ASize} (h : a ≠ .a64) : a.bits ≤ 32 := by
  cases a with
  | a16 => decide
  | a32 => decide
  | a64 => exact absurd rfl h

theorem ea64_toNat (s : State) (next : Word) (ref : Ref) : (ea64 s next ref).toNat = (ea s next ref).toNat :=
  BitVec.toNat_setWidth_of_le (asize_bits_le ref.asz)

theorem ea64_lt (s : State) (next : Word) (ref : Ref) : (ea64 s next ref).toNat < 2 ^ ref.asz.bits :=
  ea64_toNat s next ref ▸ (ea s next ref).isLt

theorem ea_toNat (s : State) (next : Word) (ref : Ref) :
    (ea s next ref).toNat = ((baseValue s next ref.base).toNat + (indexValue s ref.index).toNat * ref.scale.factor.toNat +
      ref.disp.toNat) % 2 ^ ref.asz.bits := by
  have hdvd : 2 ^ ref.asz.bits ∣ 2 ^ 64 := Nat.pow_dvd_pow 2 (asize_bits_le ref.asz)
  simp only [ea, BitVec.toNat_setWidth, BitVec.toNat_add, BitVec.toNat_mul, Nat.add_mod_mod, Nat.mod_add_mod,
    Nat.mod_mod_of_dvd _ hdvd]

/-- Settles O14: the sum modulo `2^64` is the sum modulo the smaller power. -/
theorem effectiveAddressInNumbers : Obligations.EffectiveAddressInNumbers := fun s next ref =>
  ⟨(ea64_toNat s next ref).trans (ea_toNat s next ref), ea64_lt s next ref⟩

/-- Settles O15: truncation passes through the sum and the product to the registers. -/
theorem shortAddressesReadShortRegisters : Obligations.ShortAddressesReadShortRegisters := by
  intro s t next ref h
  have hbase : (baseValue s next ref.base).setWidth ref.asz.bits = (baseValue t next ref.base).setWidth ref.asz.bits := by
    cases ref.base with
    | none => rfl
    | reg r => exact h r
    | next => rfl
  have hindex : (indexValue s ref.index).setWidth ref.asz.bits = (indexValue t ref.index).setWidth ref.asz.bits := by
    cases ref.index with
    | none => rfl
    | some r => exact h r
  have hle := asize_bits_le ref.asz
  have hea : ea s next ref = ea t next ref := by
    simp only [ea, BitVec.setWidth_add _ _ hle, BitVec.setWidth_mul _ _ hle, hbase, hindex]
  rw [ea64, ea64, hea]

theorem linear_of_base_zero {s : State} {seg : Seg} (h : base64 s seg = 0#64) (next : Word) (ref : Ref) :
    linear s next seg ref = ea64 s next ref := by
  simp [linear, h]

/-- Settles O16: the four bases that count as zero, then the two that are read. -/
theorem linearAddressUnderEachSegment : Obligations.LinearAddressUnderEachSegment := by
  intro s next ref
  refine ⟨fun seg hseg => linear_of_base_zero ?_ next ref, BitVec.toNat_add _ _, BitVec.toNat_add _ _⟩
  simp only [List.mem_cons, List.not_mem_nil, or_false] at hseg
  rcases hseg with rfl | rfl | rfl | rfl <;> rfl

end Sys2Proof.Proofs
end

section
/-! Canonical addresses as numbers (41_canonical_addressing.md R87, R96, R98). -/

namespace Sys2Proof.Proofs

open Sys2Proof Sys2Proof.Machine

/-- R87: the sign extension of the implemented bits repeats the top one of them. -/
theorem canonical_iff_signExtend {n : Nat} (h1 : 1 ≤ n) (h64 : n ≤ 64) (a : Word) :
    canonical n a = true ↔ a = (a.setWidth n).signExtend 64 := by
  have hbit : ∀ k < 64, ((a.setWidth n).signExtend 64).getLsbD k =
      if k < n then a.getLsbD k else a.getLsbD (n - 1) := by
    intro k hk
    have htop : n - 1 < n := by omega
    rw [BitVec.getLsbD_signExtend, BitVec.msb_eq_getLsbD_last]
    split
    · next hkn => simp [hk, hkn]
    · next hkn => simp [hk, htop]
  rw [canonical_iff_upper_eq_top h1 h64]
  constructor
  · intro h
    refine BitVec.eq_of_getLsbD_eq fun k hk => ?_
    rw [hbit k hk]
    split
    · rfl
    · next hkn => exact h k (by omega) (by omega)
  · intro h k hkn hk
    have := hbit k (by omega)
    rwa [← h, if_neg (by omega)] at this

theorem ushiftRight_eq_zero_iff_lt (a : Word) (m : Nat) : a >>> m = 0#64 ↔ a.toNat < 2 ^ m := by
  rw [← BitVec.toNat_inj, BitVec.toNat_ushiftRight, Nat.shiftRight_eq_div_pow, BitVec.toNat_ofNat, Nat.zero_mod,
    Nat.div_eq_zero_iff]
  simp

/-- R87: the bottom and the top range. -/
theorem canonical_iff_ranges {n : Nat} (h64 : n ≤ 64) (a : Word) :
    canonical n a = true ↔ a.toNat < 2 ^ (n - 1) ∨ 2 ^ 64 - 2 ^ (n - 1) ≤ a.toNat := by
  have hle : 2 ^ (n - 1) ≤ 2 ^ 64 := Nat.pow_le_pow_right (by decide) (by omega)
  have ha := a.isLt
  simp only [canonical, Bool.or_eq_true, beq_iff_eq, ushiftRight_eq_zero_iff_lt, BitVec.toNat_not]
  omega

/-- Settles O17: bit by bit, as a sign extension, as two ranges. -/
theorem canonicalAddresses : Obligations.CanonicalAddresses := fun n a h1 h64 =>
  ⟨canonical_iff_zeros_or_ones n a, canonical_iff_signExtend h1 h64 a, canonical_iff_ranges h64 a⟩

/-- R98: more implemented bits leave fewer bits to agree. -/
theorem canonical_of_le {n m : Nat} (h : n ≤ m) {a : Word} (ha : canonical n a = true) : canonical m a = true := by
  rw [canonical_iff_zeros_or_ones] at ha ⊢
  exact ha.imp (fun hz k hk => hz k (by omega)) fun ho k hk => ho k (by omega)

theorem canonical_sixtyFour (a : Word) : canonical 64 a = true :=
  (canonical_iff_upper_eq_top (by decide) le_rfl a).mpr fun k h64 h63 => absurd h64 (by omega)

/-- Settles O19: fewer bits to agree, and with 64 none. -/
theorem widerImplementationsKeepCanonical : Obligations.WiderImplementationsKeepCanonical :=
  ⟨fun _ _ _ _ hnm _ ha => canonical_of_le hnm ha, canonical_sixtyFour⟩

theorem canonicalAt_iff_ranges {p : Params} (hp : p.laBits ≤ 64) {a : Nat} (ha : a < addressSpace) :
    canonicalAt p a = true ↔ a < 2 ^ (p.laBits - 1) ∨ 2 ^ 64 - 2 ^ (p.laBits - 1) ≤ a := by
  rw [canonicalAt, canonical_iff_ranges hp, BitVec.toNat_ofNat, Nat.mod_eq_of_lt (show a < 2 ^ 64 from ha)]

/-- Settles O20: both ends lie in one of the two ranges, since the gap between them is none or `2^63` at least. -/
theorem firstAndLastByteSuffice : Obligations.FirstAndLastByteSuffice := by
  rintro p a n ⟨-, h64, -⟩ hn hn15 hw hfirst hlast k hk
  have hw' : a + n ≤ 2 ^ 64 := hw
  rw [canonicalAt_iff_ranges h64 (by unfold addressSpace; omega)] at hfirst hlast ⊢
  have hgap : p.laBits - 1 = 63 ∨ p.laBits - 1 ≤ 62 := by omega
  rcases hgap with hgap | hgap
  · rw [hgap]; omega
  · have hhalf : 2 ^ (p.laBits - 1) ≤ 2 ^ 62 := Nat.pow_le_pow_right (by decide) hgap
    omega

end Sys2Proof.Proofs
end

section
/-! The segment, the exception and the checks of a reference (41_canonical_addressing.md R90 to R96). -/

namespace Sys2Proof.Proofs

open Sys2Proof Sys2Proof.Machine

/-- R95 follows the branches of R93. -/
theorem faultClass_eq_ss_iff (ref : Ref) : faultClass ref = .ss ↔ effSeg ref = .ss := by
  unfold faultClass effSeg
  by_cases hi : ref.impliedStack = true
  · simp [hi]
  by_cases hfs : ref.ovr = some .fs
  · simp [hi, hfs]
  by_cases hgs : ref.ovr = some .gs
  · simp [hi, hgs]
  by_cases hb : stackBase ref = true
  · simp [hi, hfs, hgs, hb]
  · simp [hi, hfs, hgs, hb]

theorem effSeg_of_not_fs_gs {ref : Ref} (hfs : ref.ovr ≠ some .fs) (hgs : ref.ovr ≠ some .gs) :
    effSeg ref = if ref.impliedStack = true then .ss else if stackBase ref = true then .ss else .ds :=
  effSeg_setOvr_of_not_fs_gs ref hfs hgs

theorem stackBase_iff (ref : Ref) : stackBase ref = true ↔ ref.base = .reg Reg.rsp ∨ ref.base = .reg Reg.rbp := by
  simp [stackBase]

theorem memRef_impliedStack (rex : Rex) (asz : ASize) (ovr : Option Seg) (m : MemOperand) :
    (memRef rex asz ovr m).impliedStack = false := by
  cases m <;> rfl

/-- The spec's decision D17: PUSH and POP alone make implied stack references. -/
theorem impliedStack_of_dataRef {s : State} {i : Instr} {ref : Ref} (h : dataRef s i = some ref) :
    ref.impliedStack = stackRefInstr i := by
  cases i with
  | lea a32 rex reg m => simp [dataRef] at h
  | movImm64 rex rd v => simp [dataRef] at h
  | movLoadMoffs p rex off => obtain rfl := Option.some.inj h; rfl
  | movStoreMoffs p rex off => obtain rfl := Option.some.inj h; rfl
  | movLoad p rex reg rm =>
    cases rm with
    | reg r => simp [dataRef] at h
    | mem m => obtain rfl := Option.some.inj h; exact memRef_impliedStack _ _ _ m
  | movStore p rex reg rm =>
    cases rm with
    | reg r => simp [dataRef] at h
    | mem m => obtain rfl := Option.some.inj h; exact memRef_impliedStack _ _ _ m
  | push rex rd => obtain rfl := Option.some.inj h; rfl
  | pop rex rd => obtain rfl := Option.some.inj h; rfl
  | jmpRel8 rex v => simp [dataRef] at h

/-- Settles O21: the fault class is read off the segment, and the segment off the branches of R93. -/
theorem stackFaultExactlyUnderSS : Obligations.StackFaultExactlyUnderSS := by
  refine ⟨fun ref => ⟨faultClass_eq_ss_iff ref, fun hi => ?implied, fun hb hfs hgs => ?stack, fun hi hb => ?neither⟩,
    stackBase_iff, fun s i ref h => by rw [impliedStack_of_dataRef h]⟩
  case implied =>
    have hseg : effSeg ref = .ss := by simp [effSeg, hi]
    exact ⟨hseg, (faultClass_eq_ss_iff ref).mpr hseg⟩
  case stack =>
    have hseg : effSeg ref = .ss := by simp [effSeg_of_not_fs_gs hfs hgs, hb]
    exact ⟨hseg, (faultClass_eq_ss_iff ref).mpr hseg⟩
  case neither =>
    refine ⟨by simp [faultClass, hi, hb], fun hfs hgs => ?_⟩
    simp [effSeg_of_not_fs_gs hfs hgs, hi, hb]

/-- Where some test of a number below `n` fails, there is a first one. -/
theorem exists_first_false {f : Nat → Bool} {n : Nat} (h : ∃ k < n, f k = false) :
    ∃ k < n, f k = false ∧ ∀ j < k, f j = true := by
  classical
  obtain ⟨hn, hf⟩ := Nat.find_spec h
  exact ⟨Nat.find h, hn, hf, fun j hj => by simpa using fun hfj => Nat.find_min h hj ⟨by omega, hfj⟩⟩

theorem checkBytes_exists_raise_iff (p : Params) (x : Exc) (a n : Nat) :
    (∃ b, checkBytes p x a n = .raise x b) ↔
      a + n ≤ addressSpace ∧ ∃ k < n, canonicalAt p (a + k) = false := by
  simp only [checkBytes_raise_iff]
  constructor
  · rintro ⟨b, hw, -, k, hk, -, hc, -⟩
    exact ⟨hw, k, hk, hc⟩
  · rintro ⟨hw, hc⟩
    obtain ⟨k, hk, hc, hfirst⟩ := exists_first_false (f := fun k => canonicalAt p (a + k)) hc
    exact ⟨_, hw, trivial, k, hk, rfl, hc, hfirst⟩

theorem checkBytes_exists_stuck_iff (p : Params) (x : Exc) (a n : Nat) :
    (∃ b, checkBytes p x a n = .stuck b) ↔
      a + n ≤ addressSpace ∧ (∀ k < n, canonicalAt p (a + k) = true) ∧ ∃ k < n, inLaunch p (a + k) = false := by
  simp only [checkBytes_stuck_iff]
  constructor
  · rintro ⟨b, hw, hc, k, hk, -, hl, -⟩
    exact ⟨hw, hc, k, hk, hl⟩
  · rintro ⟨hw, hc, hl⟩
    obtain ⟨k, hk, hl, hfirst⟩ := exists_first_false (f := fun k => inLaunch p (a + k)) hl
    exact ⟨_, hw, hc, k, hk, rfl, hl, hfirst⟩

/-- Settles O24: the four answers of the check of the bytes, at the address of the reference. -/
theorem referenceChecksInOrder : Obligations.ReferenceChecksInOrder := by
  intro s next ref n
  refine ⟨?wrap, checkBytes_exists_raise_iff _ _ _ n, checkBytes_exists_stuck_iff _ _ _ n, checkBytes_ok_iff _ _ _ n⟩
  case wrap => exact (checkBytes_refuse_iff _ _ _ n _).trans (by simp)

end Sys2Proof.Proofs
end

section
/-! Memory read back after a write (20_memory.md section 8). -/

namespace Sys2Proof.Proofs

open Sys2Proof Sys2Proof.Machine

/-- A value is determined by its bytes. -/
theorem eq_of_bytes_eq {n : Nat} {v w : BitVec (8 * n)}
    (h : ∀ k < n, v.extractLsb' (8 * k) 8 = w.extractLsb' (8 * k) 8) : v = w := by
  refine BitVec.eq_of_getLsbD_eq fun i hi => ?_
  have hbit := congrArg (fun b : Byte => b.getLsbD (i % 8)) (h (i / 8) (by omega))
  simpa [Nat.mod_lt, Nat.div_add_mod] using hbit

/-- R47: a read is the value whose bytes stand there, lowest first. -/
theorem read_eq_of_bytes {m : Memory} {a n : Nat} {v : BitVec (8 * n)}
    (h : ∀ k < n, m.readByte (a + k) = v.extractLsb' (8 * k) 8) : m.read a n = v :=
  eq_of_bytes_eq fun k hk => (extract_read n m a k hk).trans (h k hk)

/-- The bytes of a part of a value that begins at byte `j`. -/
theorem extract_extract_byte {w : Nat} (v : BitVec w) (j k len : Nat) (hk : 8 * k + 8 ≤ len) :
    (v.extractLsb' (8 * j) len).extractLsb' (8 * k) 8 = v.extractLsb' (8 * (j + k)) 8 := by
  ext i hi
  have hlt : 8 * k + i < len := by omega
  simp [hlt, Nat.mul_add, Nat.add_assoc]

/-- Reading `l` bytes of those written, from byte `j` on, gives that part of the value. -/
theorem read_write_part (m : Memory) (a n j l : Nat) (v : BitVec (8 * n)) (h : j + l ≤ n) :
    (m.write a n v).read (a + j) l = v.extractLsb' (8 * j) (8 * l) :=
  read_eq_of_bytes fun k hk => by
    rw [Nat.add_assoc, readByte_write n m a (j + k) v (by omega), extract_extract_byte v j k (8 * l) (by omega)]

/-- Settles O26: the whole of the value, and its two halves. -/
theorem littleEndianReadBack : Obligations.LittleEndianReadBack :=
  ⟨fun m a n v => read_eq_of_bytes fun k hk => readByte_write n m a k v hk,
    fun m a v => ⟨read_write_part m a 8 0 4 v (by decide), read_write_part m a 8 4 4 v (by decide)⟩⟩

/-- Settles O27: below the bytes written, above them, and the form of the cells. -/
theorem writeChangesOnlyItsBytes : Obligations.WriteChangesOnlyItsBytes := fun m a n b v =>
  ⟨fun h => h.elim (readByte_write_below n m a b v) (readByte_write_above n m a b v), write_wf n m a v⟩

end Sys2Proof.Proofs
end

section
/-! The fetch of the bytes at `pc`, and the tests before it (42_named_instructions.md R99; 41_canonical_addressing.md
R97). -/

namespace Sys2Proof.Proofs

open Sys2Proof Sys2Proof.Machine

/-! ### Bytes that stand at `pc` -/

theorem holds_take {s : State} {bs : List Byte} (h : s.Holds bs) (n : Nat) : s.Holds (bs.take n) := by
  intro k hk
  rw [List.length_take] at hk
  rw [List.getElem_take]
  exact h k (by omega)

theorem holds_of_append {s : State} {bs rest : List Byte} (h : s.Holds (bs ++ rest)) : s.Holds bs := by
  simpa using holds_take h bs.length

theorem checkBytes_of_fetchable {s : State} {k : Nat} (h : s.Fetchable k) :
    checkBytes s.params .gp (s.pc.toNat + k) 1 = .ok := by
  obtain ⟨hw, hc, hl⟩ := h
  refine (checkBytes_ok_iff _ _ _ _).mpr ⟨hw, fun j hj => ?_⟩
  obtain rfl : j = 0 := by omega
  exact ⟨hc, hl⟩

theorem fetchFrom_more {s : State} {k : Instr → Result} {fuel : Nat} {got : List Byte} (h : decode got = .more) :
    fetchFrom s k (fuel + 1) got = s.admitted (checkBytes s.params .gp (s.pc.toNat + got.length) 1)
      (fetchFrom s k fuel (got ++ [s.mem.readByte (s.pc.toNat + got.length)])) := by
  simp only [fetchFrom, h]

theorem fetchFrom_ok {s : State} {k : Instr → Result} {fuel : Nat} {got rest : List Byte} {i : Instr}
    (h : decode got = .ok i rest) : fetchFrom s k (fuel + 1) got = k i := by
  simp only [fetchFrom, h]

theorem fetchFrom_refuse {s : State} {k : Instr → Result} {fuel : Nat} {got : List Byte} {r : Reject}
    (h : decode got = .refuse r) : fetchFrom s k (fuel + 1) got = .refused (.undecodable r) := by
  simp only [fetchFrom, h]

/-- A byte that stands at `pc` and is asked for is fetched. -/
theorem fetchFrom_take_succ {s : State} {k : Instr → Result} {bs : List Byte} (hh : s.Holds bs) {n : Nat}
    (hn : n < bs.length) (hmore : decode (bs.take n) = .more) (fuel : Nat) :
    fetchFrom s k (fuel + 1) (bs.take n) = fetchFrom s k fuel (bs.take (n + 1)) := by
  obtain ⟨hf, hb⟩ := hh n hn
  have hlen : (bs.take n).length = n := by rw [List.length_take]; omega
  rw [fetchFrom_more hmore, hlen, checkBytes_of_fetchable hf, hb, List.take_append_getElem]
  rfl

/-- The fetch of bytes that stand at `pc`, none of whose proper beginnings decides, comes to all of them with fuel
left. -/
theorem fetch_of_holds {s : State} {bs : List Byte} (k : Instr → Result) (hh : s.Holds bs)
    (hmore : ∀ n < bs.length, decode (bs.take n) = .more) : ∃ fuel, fetch s k = fetchFrom s k (fuel + 1) bs := by
  have hstep : ∀ n ≤ bs.length, ∃ fuel, fuel + n = maxLength ∧ fetch s k = fetchFrom s k (fuel + 1) (bs.take n) := by
    intro n
    induction n with
    | zero => exact fun _ => ⟨maxLength, rfl, rfl⟩
    | succ n ih =>
      intro hn
      obtain ⟨fuel, hfuel, he⟩ := ih (by omega)
      have hlt : n < 11 := by
        have := length_of_decode_more (hmore n hn)
        rw [List.length_take] at this; omega
      obtain ⟨fuel', rfl⟩ : ∃ fuel', fuel = fuel' + 1 := ⟨fuel - 1, by unfold maxLength at hfuel; omega⟩
      exact ⟨fuel', by omega, he.trans (fetchFrom_take_succ hh hn (hmore n hn) _)⟩
  obtain ⟨fuel, -, he⟩ := hstep bs.length le_rfl
  exact ⟨fuel, by rwa [List.take_length] at he⟩

/-! ### The step over bytes that stand at `pc` -/

/-- Settles O28: the fetch asks for the instruction's bytes one by one, and they decode to it. -/
theorem stepRunsTheDecodedInstruction : Obligations.StepRunsTheDecodedInstruction := by
  intro s i hs hw hh
  obtain ⟨fuel, hfetch⟩ := fetch_of_holds (fun i => exec i s) hh fun n hn => properPrefixDecidesNothing i n hw hn
  rw [step_of_running hs, hfetch, fetchFrom_ok (decode_encode hw)]

/-- The step where an instruction's first `k` bytes stand at `pc` and the next one is asked for. -/
theorem step_of_holds_take {s : State} {i : Instr} {k : Nat} (hs : s.Running) (hw : i.WellFormed)
    (hk : k < instrLength i) (hh : s.Holds ((encode i).take k)) :
    ∃ rest, step s = s.admitted (checkBytes s.params .gp (s.pc.toNat + k) 1) rest := by
  have hlen : ((encode i).take k).length = k := List.length_take_of_le (Nat.le_of_lt hk)
  have hmore : ∀ n < ((encode i).take k).length, decode (((encode i).take k).take n) = .more := fun n hn => by
    rw [hlen] at hn
    rw [List.take_take, min_eq_left hn.le]
    exact properPrefixDecidesNothing i n hw (hn.trans hk)
  obtain ⟨fuel, hfetch⟩ := fetch_of_holds (fun i => exec i s) hh hmore
  rw [step_of_running hs, hfetch, fetchFrom_more (properPrefixDecidesNothing i k hw hk), hlen]
  exact ⟨_, rfl⟩

/-- Settles O30: the check of the byte asked for, in its order. -/
theorem fetchChecksEachByte : Obligations.FetchChecksEachByte := by
  intro s i k hs hw hk hh
  obtain ⟨rest, hstep⟩ := step_of_holds_take hs hw hk hh
  refine ⟨fun hwrap => ?wrap, fun hnowrap => ⟨fun hc => ?raise, fun hc hl => ?stuck⟩⟩
  case wrap =>
    have hcheck := (checkBytes_refuse_iff s.params .gp (s.pc.toNat + k) 1 .wrap).mpr ⟨rfl, by omega⟩
    rw [hstep, hcheck]; rfl
  case raise =>
    obtain ⟨b, hcheck⟩ := (checkBytes_exists_raise_iff s.params .gp (s.pc.toNat + k) 1).mpr
      ⟨hnowrap, 0, by decide, hc⟩
    exact ⟨b, by rw [hstep, hcheck]; rfl⟩
  case stuck =>
    have hall : ∀ j < 1, canonicalAt s.params (s.pc.toNat + k + j) = true := fun j hj => by
      obtain rfl : j = 0 := by omega
      exact hc
    obtain ⟨b, hcheck⟩ := (checkBytes_exists_stuck_iff s.params .gp (s.pc.toNat + k) 1).mpr
      ⟨hnowrap, hall, 0, by decide, hl⟩
    exact ⟨b, by rw [hstep, hcheck]; rfl⟩

/-- Bytes that decide a refusal have a beginning that decides it, and no shorter one decides anything. -/
theorem exists_deciding_take {bs : List Byte} {r : Reject} (h : decode bs = .refuse r) :
    ∃ m, decode (bs.take m) = .refuse r ∧ ∀ n < m, decode (bs.take n) = .more := by
  classical
  have hex : ∃ m, decode (bs.take m) ≠ .more := ⟨bs.length, by rw [List.take_length, h]; simp⟩
  refine ⟨Nat.find hex, ?_, fun n hn => not_not.mp (Nat.find_min hex hn)⟩
  have hm := Nat.find_spec hex
  have hbs : bs = bs.take (Nat.find hex) ++ bs.drop (Nat.find hex) := (List.take_append_drop _ _).symm
  cases hd : decode (bs.take (Nat.find hex)) with
  | more => exact absurd hd hm
  | ok i rest => rw [hbs, decode_ok_append hd] at h; simp at h
  | refuse r' => rw [hbs, refusalIsDecidedOnce _ _ _ hd] at h; rw [← h]

/-- Settles O31: the fetch stops at the first bytes that decide the refusal. -/
theorem undecodableBytesAreRefused : Obligations.UndecodableBytesAreRefused := by
  intro s bs r hs hh h
  obtain ⟨m, hm, hmore⟩ := exists_deciding_take h
  obtain ⟨fuel, hfetch⟩ := fetch_of_holds (fun i => exec i s) (holds_take hh m) fun n hn => by
    rw [List.length_take] at hn
    rw [List.take_take, min_eq_left (by omega)]
    exact hmore n (by omega)
  rw [step_of_running hs, hfetch, fetchFrom_refuse hm]

/-! ### The tests before the fetch -/

theorem step_of_fault {s : State} (h : s.fault ≠ .none) : step s = .fault (.ended s.fault) := if_pos h

theorem step_of_noFault {s : State} (h : s.fault = .none) : step s = s.inMode64
    (if s.pc = s.params.codeEnd then .fault .final
      else if !canonical s.params.laBits s.pc then .next (s.raise .gp s.pc)
      else if !inCode s.params s.pc.toNat then .refused .fetchOutsideCode
      else fetch s fun i => exec i s) := if_neg (not_not.mpr h)

theorem step_of_final {s : State} (he : s.executes = true) (h : s.Final) : step s = .fault .final := by
  rw [step_of_noFault h.1, inMode64_of_executes he, if_pos h.2]

/-- Settles O29: one test after the other, each past those before it. -/
theorem stepTestsInOrder : Obligations.StepTestsInOrder := by
  intro s
  refine ⟨step_of_fault, fun hf he => ?mode, fun hf he =>
    ⟨fun hpc => ?final, fun hpc => ⟨fun hc => ?raise, fun hc hin => ?outside⟩⟩⟩
  case mode => rw [step_of_noFault hf]; simp [State.inMode64, he]
  case final => exact step_of_final he ⟨hf, hpc⟩
  case raise => exact ⟨s.pc, by simp [step_of_noFault hf, inMode64_of_executes he, hpc, hc]⟩
  case outside => simp [step_of_noFault hf, inMode64_of_executes he, hpc, hc, hin]

end Sys2Proof.Proofs
end

section
/-! What each instruction does where it completes (42_named_instructions.md sections 2 to 5). -/

namespace Sys2Proof.Proofs

open Sys2Proof Sys2Proof.Machine

/-! ### Completion, from the checks of the data reference -/

theorem exec_of_noRef {i : Instr} {s : State} (he : s.executes = true) (hr : dataRef s i = none) :
    exec i s = .next (completed i s) :=
  exec_completes he fun ref h => by simp [hr] at h

theorem refCheck_of_accessible {s : State} {next : Word} {ref : Ref}
    (h : s.Accessible (refAddr s next ref).toNat 8) : refCheck s next ref accessBytes = .ok :=
  (checkBytes_ok_iff _ _ _ _).mpr h

theorem touchesCode_eq_false_iff (p : Params) (a n : Nat) :
    touchesCode p a n = false ↔ ∀ k < n, inCode p (a + k) = false := by
  simp [touchesCode]

theorem exec_load {i : Instr} {s : State} {ref : Ref} (he : s.executes = true) (hr : dataRef s i = some ref)
    (hi : isStore i = false) (ha : s.Accessible (refAddr s (s.nextPc i) ref).toNat 8) :
    exec i s = .next (completed i s) :=
  exec_completes he fun r h => by
    obtain rfl : ref = r := Option.some.inj (hr.symm.trans h)
    exact ⟨refCheck_of_accessible ha, by simp [hi]⟩

theorem exec_store {i : Instr} {s : State} {ref : Ref} (he : s.executes = true) (hr : dataRef s i = some ref)
    (ha : s.Accessible (refAddr s (s.nextPc i) ref).toNat 8)
    (hc : ∀ k < 8, inCode s.params ((refAddr s (s.nextPc i) ref).toNat + k) = false) :
    exec i s = .next (completed i s) :=
  exec_completes he fun r h => by
    obtain rfl : ref = r := Option.some.inj (hr.symm.trans h)
    exact ⟨refCheck_of_accessible ha, fun _ => (touchesCode_eq_false_iff _ _ _).mpr hc⟩

/-! ### What completion reads and writes -/

/-- How an instruction that writes one register ends. -/
theorem writesReg_retire (s : State) (d : Reg) (v next : Word) :
    WritesReg s ((s.setReg d v).ipWrite (.ip64 next)) d v next where
  value := by simp
  others r hr := by simp [reg_setReg_other s v hr]
  pc := rfl
  memory a := by simp
  control := by constructor <;> rfl

/-- The value loaded is the eight bytes' (R47). -/
theorem hasWord_readWord {s : State} {a : Nat} (h : s.Accessible a 8) : s.HasWord a (s.mem.readWord a) := by
  intro k hk
  obtain ⟨-, hl⟩ := h.2 k hk
  rw [extract_readWord s.mem a k hk, State.byteAt, if_pos hl]

theorem byteAt_of_readByte_eq {s t : State} {b : Nat} (hp : t.params = s.params)
    (hm : t.mem.readByte b = s.mem.readByte b) : t.byteAt b = s.byteAt b := by
  rw [State.byteAt, State.byteAt, hp, hm]

/-- A write of eight bytes to memory stores them and leaves the others (R47, R50). -/
theorem storesWord_writeWord {s t : State} {a : Nat} {v : Word} (h : s.Accessible a 8) (hp : t.params = s.params)
    (hm : t.mem = s.mem.writeWord a v) : StoresWord s t a v where
  stored k hk := by
    obtain ⟨-, hl⟩ := h.2 k hk
    rw [State.byteAt, hp, if_pos hl, hm, readByte_writeWord s.mem a k v hk]
  elsewhere b hb := byteAt_of_readByte_eq hp (by rw [hm, readByte_writeWord_other s.mem a b v hb])

/-- How an instruction that stores and writes no register ends. -/
theorem writesMem_store {s : State} {a : Nat} (h : s.Accessible a 8) (v next : Word) :
    WritesMem s ((s.setMem (s.mem.writeWord a v)).ipWrite (.ip64 next)) a v next where
  store := storesWord_writeWord h rfl rfl
  regs r := rfl
  pc := rfl
  control := by constructor <;> rfl

theorem refAddr_stackRef (s : State) (next a : Word) : refAddr s next (stackRef a) = a := by
  simp [refAddr, linear, effSeg, stackRef, base64, ea64, ea, baseValue, indexValue, ASize.bits]

/-! ### Forms without a data reference -/

/-- Settles O32: LEA makes no reference, so it completes. -/
theorem leaCompletes : Obligations.LeaCompletes := fun _ _ _ _ _ he =>
  ⟨_, exec_of_noRef he rfl, writesReg_retire _ _ _ _⟩

/-- Settles O33: no reference, and the ten bytes of its encoding. -/
theorem movImmediateCompletes : Obligations.MovImmediateCompletes := by
  intro s rex rd imm he
  have hlen : instrLength (.movImm64 rex rd imm) = 10 := by simp [instrLength, encode]
  have hnext : s.nextPc (.movImm64 rex rd imm) = s.pc + 10#64 := by rw [State.nextPc, hlen]
  exact ⟨_, exec_of_noRef he rfl, hnext ▸ writesReg_retire s (regNum rex.b rd) imm _⟩

/-- Settles O34: with a register operand neither form makes a reference. -/
theorem movBetweenRegistersCompletes : Obligations.MovBetweenRegistersCompletes := fun _ _ _ _ _ he =>
  ⟨⟨_, exec_of_noRef he rfl, writesReg_retire _ _ _ _⟩, ⟨_, exec_of_noRef he rfl, writesReg_retire _ _ _ _⟩⟩

/-- Settles O39: no reference, and the sum modulo `2^64` of the signed offset. -/
theorem jmpCompletes : Obligations.JmpCompletes := by
  intro s rex rel he
  refine ⟨_, exec_of_noRef he rfl, ?pc, fun r => ipWrite_reg _ _ r, fun b => ipWrite_byteAt _ _ b,
    completed_sameControl _ s⟩
  case pc =>
    have hrel : (rel.signExtend 64).toInt = rel.toInt := BitVec.toInt_signExtend_of_le (by decide)
    have hmod : ((rel.signExtend 64).toNat : Int) % 2 ^ 64 = rel.toInt % 2 ^ 64 := by
      rw [← hrel, BitVec.toInt_eq_toNat_bmod]
      exact Int.bmod_emod.symm
    simp only [completed, ipWrite_ip64, BitVec.toNat_add]
    push_cast
    omega

/-! ### Loads and stores -/

/-- Settles O35: both loads read the eight bytes of their reference and retire with them. -/
theorem movLoadsComplete : Obligations.MovLoadsComplete :=
  ⟨fun _ _ _ _ he ha => ⟨_, _, exec_load he rfl rfl ha, hasWord_readWord ha, writesReg_retire _ _ _ _⟩,
    fun _ _ _ _ _ he ha => ⟨_, _, exec_load he rfl rfl ha, hasWord_readWord ha, writesReg_retire _ _ _ _⟩⟩

/-- Settles O36: both stores write the eight bytes of their reference. -/
theorem movStoresComplete : Obligations.MovStoresComplete :=
  ⟨fun _ _ _ _ he ha hc => ⟨_, exec_store he rfl ha hc, writesMem_store ha _ _⟩,
    fun _ _ _ _ _ he ha hc => ⟨_, exec_store he rfl ha hc, writesMem_store ha _ _⟩⟩

/-! ### The stack -/

/-- Settles O37: the store at `RSP - 8`, with the source read before RSP is written. -/
theorem pushCompletes : Obligations.PushCompletes := by
  intro s rex rd he a ha hc
  have haddr := refAddr_stackRef s (s.nextPc (.push rex rd)) a
  refine ⟨_, exec_store he rfl (haddr.symm ▸ ha) (haddr.symm ▸ hc), ?store, ?rsp, fun r hr => ?others, rfl,
    completed_sameControl _ s⟩
  case store => exact storesWord_writeWord ha rfl (by rw [← haddr]; rfl)
  case rsp => simp [completed, a]
  case others => simp [completed, reg_setReg_other _ _ hr]

/-- The state after POP of the eight bytes at RSP. -/
theorem completed_pop (s : State) (rex : Option Rex) (rd : BitVec 3) :
    completed (.pop rex rd) s = ((s.setReg Reg.rsp (s.reg Reg.rsp + 8#64)).setReg (regNum (rexB rex) rd)
      (s.mem.readWord (s.reg Reg.rsp).toNat)).ipWrite (.ip64 (s.nextPc (.pop rex rd))) := by
  simp only [completed, refAddr_stackRef]

theorem exec_pop {s : State} {rex : Option Rex} {rd : BitVec 3} (he : s.executes = true)
    (ha : s.Accessible (s.reg Reg.rsp).toNat 8) : exec (.pop rex rd) s = .next (completed (.pop rex rd) s) :=
  exec_load he rfl rfl ((refAddr_stackRef s (s.nextPc (.pop rex rd)) (s.reg Reg.rsp)).symm ▸ ha)

/-- Settles O38: RSP is written first and the destination second, so `POP RSP` keeps the value read. -/
theorem popCompletes : Obligations.PopCompletes := by
  intro s rex rd he a d ha
  refine ⟨_, s.mem.readWord a.toNat, exec_pop he ha, hasWord_readWord ha, ?_⟩
  rw [completed_pop]
  refine ⟨?value, fun hd => ?rsp, fun r hr hd => ?others, rfl, fun b => ?memory, by constructor <;> rfl⟩
  case value => simp [a, d]
  case rsp => rw [ipWrite_reg, reg_setReg_other _ _ hd.symm, reg_setReg_same]
  case others => rw [ipWrite_reg, reg_setReg_other _ _ hd, reg_setReg_other _ _ hr]
  case memory => simp

end Sys2Proof.Proofs
end

section
/-! Where an instruction stops or traps (60_exceptions.md sections 1 and 2; 20_memory.md sections 9 and 12). -/

namespace Sys2Proof.Proofs

open Sys2Proof Sys2Proof.Machine

/-- A meaning with a data reference, past the test of the mode. -/
theorem exec_of_dataRef {i : Instr} {s : State} {ref : Ref} (he : s.executes = true) (hr : dataRef s i = some ref) :
    exec i s = s.admitted (refCheck s (s.nextPc i) ref accessBytes)
      (if isStore i && touchesCode s.params (refAddr s (s.nextPc i) ref).toNat accessBytes then .refused .storeToCode
        else .next (completed i s)) := by
  rw [exec_eq, inMode64_of_executes he, hr]

/-- Settles O41: the check of the reference raises its fault class. -/
theorem nonCanonicalReferenceTraps : Obligations.NonCanonicalReferenceTraps := by
  intro s i ref he hr a hw hc
  obtain ⟨b, hcheck⟩ := (checkBytes_exists_raise_iff s.params (faultClass ref) a accessBytes).mpr ⟨hw, hc⟩
  exact ⟨b, by rw [exec_of_dataRef he hr, refCheck, hcheck]; rfl⟩

/-- Settles O42: the check refuses a wrap first, and is stuck outside `LaunchMem` last. -/
theorem wrapIsRefusedAndOutsideIsStuck : Obligations.WrapIsRefusedAndOutsideIsStuck := by
  intro s i ref he hr a
  refine ⟨fun hw => ?wrap, fun hw hc hl => ?stuck⟩
  case wrap =>
    have hcheck := (checkBytes_refuse_iff s.params (faultClass ref) a accessBytes .wrap).mpr ⟨rfl, hw⟩
    rw [exec_of_dataRef he hr, refCheck, hcheck]; rfl
  case stuck =>
    obtain ⟨b, hcheck⟩ := (checkBytes_exists_stuck_iff s.params (faultClass ref) a accessBytes).mpr ⟨hw, hc, hl⟩
    exact ⟨b, by rw [exec_of_dataRef he hr, refCheck, hcheck]; rfl⟩

/-- Settles O43: the reference is admitted, and then the test against the program refuses. -/
theorem storeToCodeIsRefused : Obligations.StoreToCodeIsRefused := by
  intro s i ref he hi hr a ha ⟨k, hk, hc⟩
  have htouch : touchesCode s.params a accessBytes = true := List.any_eq_true.mpr ⟨k, List.mem_range.mpr hk, hc⟩
  rw [exec_of_dataRef he hr, refCheck_of_accessible ha, if_pos (by rw [hi, htouch]; rfl)]
  rfl

/-- Settles O45: every meaning begins with the test of the mode. -/
theorem nothingExecutesOutsideMode64 : Obligations.NothingExecutesOutsideMode64 := by
  intro s i h
  have he : s.executes = false := by
    rcases h with h | h
    · simp [State.executes, h]
    · simp [State.executes, h]
  rw [exec_eq, State.inMode64, he]
  rfl

/-- A reference that faults with #SS is implied, or has a stack base and no FS or GS override (R95). -/
theorem stack_of_faultClass_ss {ref : Ref} (h : faultClass ref = .ss) :
    ref.impliedStack = true ∨
      stackBase ref = true ∧ ref.impliedStack = false ∧ ref.ovr ≠ some .fs ∧ ref.ovr ≠ some .gs := by
  unfold faultClass at h
  by_cases hi : ref.impliedStack = true
  · exact .inl hi
  rw [if_neg hi] at h
  by_cases ho : ref.ovr = some .fs ∨ ref.ovr = some .gs
  · simp [ho] at h
  rw [if_neg ho] at h
  obtain ⟨hfs, hgs⟩ := not_or.mp ho
  by_cases hb : stackBase ref = true
  · exact .inr ⟨hb, by simpa using hi, hfs, hgs⟩
  · simp [hb] at h

/-- A step of which `pc` and every fetch byte were canonical ran the well-formed instruction whose bytes stand at `pc`. -/
theorem step_next_cases {s t : State} (h : step s = .next t) :
    s.fault = .none ∧ s.executes = true ∧
      ((∃ a, t = s.raise .gp a) ∨
        s.Running ∧ ∃ i : Instr, i.WellFormed ∧ s.Holds (encode i) ∧ exec i s = .next t) := by
  obtain ⟨hf, he, ⟨a, ha⟩ | ⟨hrun, bs, i, rest, hh, hd, hx⟩⟩ := step_next h
  · exact ⟨hf, he, .inl ⟨a, ha⟩⟩
  · obtain ⟨hw, rfl⟩ := encodeOfDecode _ _ _ hd
    exact ⟨hf, he, .inr ⟨hrun, i, hw, holds_of_append hh, hx⟩⟩

@[simp] theorem completed_fault (i : Instr) (s : State) : (completed i s).fault = s.fault :=
  (completed_sameControl i s).fault

/-- Settles O44: a fetch raises #GP and a completed instruction nothing, so the data reference raised it. -/
theorem stackFaultOnlyFromStackReferences : Obligations.StackFaultOnlyFromStackReferences := by
  intro s t trace h ht
  obtain ⟨hf, he, ⟨a, rfl⟩ | ⟨hrun, i, hw, hh, hx⟩⟩ := step_next_cases h
  · simp at ht
  · refine ⟨hrun, i, ?_⟩
    obtain ⟨-, ⟨rfl, -⟩ | ⟨ref, a, hr, -, rfl⟩⟩ := exec_next hx
    · simp [hf] at ht
    · have hss : faultClass ref = .ss := by
        rw [raise_fault] at ht
        exact (FaultStatus.raised.inj ht).1
      refine ⟨ref, hw, hh, hx, hr, ?_⟩
      rw [← impliedStack_of_dataRef hr]
      exact stack_of_faultClass_ss hss

end Sys2Proof.Proofs
end

section
/-! What an instruction and a step leave unchanged (42_named_instructions.md; 70_reset_and_hazards.md section 1). -/

namespace Sys2Proof.Proofs

open Sys2Proof Sys2Proof.Machine

/-! ### Completion -/

theorem completed_reg_other {i : Instr} {s : State} {r : Reg} (h : r ∉ destRegs i) : (completed i s).reg r = s.reg r := by
  cases i with
  | lea a32 rex reg m => simp_all [completed, destRegs, reg_setReg_other]
  | movImm64 rex rd v => simp_all [completed, destRegs, reg_setReg_other]
  | movLoadMoffs p rex off => simp_all [completed, destRegs, reg_setReg_other]
  | movStoreMoffs p rex off => simp [completed]
  | movLoad p rex reg rm => cases rm <;> simp_all [completed, destRegs, reg_setReg_other]
  | movStore p rex reg rm => cases rm <;> simp_all [completed, destRegs, reg_setReg_other]
  | push rex rd => simp_all [completed, destRegs, reg_setReg_other]
  | pop rex rd => simp_all [completed, destRegs, reg_setReg_other]
  | jmpRel8 rex v => simp [completed]

theorem completed_mem_of_not_store {i : Instr} {s : State} (h : isStore i = false) : (completed i s).mem = s.mem := by
  cases i with
  | movLoad p rex reg rm => cases rm <;> rfl
  | movStore p rex reg rm =>
    cases rm with
    | reg dst => rfl
    | mem m => simp [isStore] at h
  | movStoreMoffs p rex off => simp [isStore] at h
  | push rex rd => simp [isStore] at h
  | _ => rfl

/-- A store writes one word, at the address of its data reference. -/
theorem completed_mem_of_store {i : Instr} {s : State} (h : isStore i = true) :
    ∃ ref v, dataRef s i = some ref ∧
      (completed i s).mem = s.mem.writeWord (refAddr s (s.nextPc i) ref).toNat v := by
  cases i with
  | movStoreMoffs p rex off => exact ⟨_, _, rfl, rfl⟩
  | movStore p rex reg rm =>
    cases rm with
    | reg dst => simp [isStore] at h
    | mem m => exact ⟨_, _, rfl, rfl⟩
  | push rex rd => exact ⟨_, _, rfl, rfl⟩
  | _ => simp [isStore] at h

/-! ### Every instruction -/

theorem sameControl_raise (s : State) (x : Exc) (a : Word) : SameControl s { s.raise x a with fault := s.fault } := by
  constructor <;> rfl

theorem sameControl_setFault {s t : State} (h : SameControl s t) : SameControl s { t with fault := s.fault } where
  params := h.params
  mode := h.mode
  cs := h.cs
  ds := h.ds
  es := h.es
  ss := h.ss
  fs := h.fs
  gs := h.gs
  csDefault := h.csDefault
  paging := h.paging
  fault := rfl

/-- Settles O46: a completed instruction writes its destinations and its eight bytes, a trapping one `fault` alone. -/
theorem frameOfEveryInstruction : Obligations.FrameOfEveryInstruction := by
  intro s t i h
  obtain ⟨-, ⟨rfl, -⟩ | ⟨ref, a, -, -, rfl⟩⟩ := exec_next h
  · have hcontrol := completed_sameControl i s
    refine ⟨fun r hr => completed_reg_other hr, fun hi b => ?load, fun hi ref hr b hb => ?store,
      sameControl_setFault hcontrol⟩
    case load => exact byteAt_of_readByte_eq hcontrol.params (by rw [completed_mem_of_not_store hi])
    case store =>
      obtain ⟨ref', v, hr', hm⟩ := completed_mem_of_store (s := s) hi
      obtain rfl : ref' = ref := Option.some.inj (hr'.symm.trans hr)
      exact byteAt_of_readByte_eq hcontrol.params (by rw [hm, readByte_writeWord_other _ _ _ _ hb])
  · exact ⟨fun _ _ => rfl, fun _ _ => rfl, fun _ _ _ _ _ => rfl, sameControl_raise s _ a⟩

/-! ### Every step -/

/-- All that a step can do to the state: raise an exception, or complete an instruction whose data reference was
admitted and, if it stores, lies outside the program. -/
theorem step_next_raise_or_completed {s t : State} (h : step s = .next t) :
    s.fault = .none ∧ ((∃ x a, t = s.raise x a) ∨
      ∃ i : Instr, t = completed i s ∧ ∀ ref, dataRef s i = some ref →
        refCheck s (s.nextPc i) ref accessBytes = .ok ∧
          (isStore i = true → touchesCode s.params (refAddr s (s.nextPc i) ref).toNat accessBytes = false)) := by
  obtain ⟨hf, -, ⟨a, rfl⟩ | ⟨-, i, -, -, hx⟩⟩ := step_next_cases h
  · exact ⟨hf, .inl ⟨_, a, rfl⟩⟩
  · obtain ⟨-, ⟨rfl, hc⟩ | ⟨ref, a, -, -, rfl⟩⟩ := exec_next hx
    · exact ⟨hf, .inr ⟨i, rfl, hc⟩⟩
    · exact ⟨hf, .inl ⟨_, a, rfl⟩⟩

/-- What a step does to memory: nothing, or one word written where every byte is admitted and none is the program's. -/
theorem step_mem {s t : State} (h : step s = .next t) :
    t.mem = s.mem ∨ ∃ a v, t.mem = s.mem.writeWord a v ∧ s.Accessible a 8 ∧
      ∀ k < 8, inCode s.params (a + k) = false := by
  obtain ⟨-, ⟨x, a, rfl⟩ | ⟨i, rfl, hc⟩⟩ := step_next_raise_or_completed h
  · exact .inl rfl
  · cases hi : isStore i with
    | false => exact .inl (completed_mem_of_not_store hi)
    | true =>
      obtain ⟨ref, v, hr, hm⟩ := completed_mem_of_store (s := s) hi
      obtain ⟨hcheck, htouch⟩ := hc ref hr
      exact .inr ⟨_, v, hm, (checkBytes_ok_iff _ _ _ _).mp hcheck, (touchesCode_eq_false_iff _ _ _).mp (htouch hi)⟩

/-- Settles O47: neither an exception nor a completed instruction writes a control component but `fault`. -/
theorem stepKeepsControlState : Obligations.StepKeepsControlState := by
  intro s t h
  obtain ⟨-, ⟨x, a, rfl⟩ | ⟨i, rfl, -⟩⟩ := step_next_raise_or_completed h
  · exact sameControl_raise s x a
  · exact sameControl_setFault (completed_sameControl i s)

theorem step_params {s t : State} (h : step s = .next t) : t.params = s.params := (stepKeepsControlState s t h).params

/-- Settles O51: the one word a step may write lies outside the program. -/
theorem programBytesAreImmutable : Obligations.ProgramBytesAreImmutable := by
  intro s t h b hb
  refine byteAt_of_readByte_eq (step_params h) ?_
  obtain hm | ⟨a, v, hm, -, hcode⟩ := step_mem h
  · rw [hm]
  · have hout : b < a ∨ a + 8 ≤ b := by
      by_contra hin
      have := hcode (b - a) (by omega)
      rw [show a + (b - a) = b by omega, hb] at this
      simp at this
    rw [hm, readByte_writeWord_other _ _ _ _ hout]

/-- Settles O52: a completed instruction leaves the fault component at none. -/
theorem exceptionsArePrecise : Obligations.ExceptionsArePrecise := by
  intro s t h ht
  obtain ⟨hf, hraise | ⟨i, rfl, -⟩⟩ := step_next_raise_or_completed h
  · exact ⟨hf, hraise⟩
  · exact absurd ((completed_fault i s).trans hf) ht

/-! ### The premises of a run -/

/-- The premises speak of the mode, the parameters, paging and memory alone. -/
theorem admitted_of_same {tr : Nat → Option Nat} {s t : State} (h : s.Admitted tr) (hmode : t.mode = s.mode)
    (hparams : t.params = s.params) (hpaging : t.paging = s.paging) (hwf : t.mem.wf)
    (hcells : ∀ c ∈ t.mem.cells, inLaunch s.params c.1 = true) : t.Admitted tr where
  mode64 := hmode.trans h.mode64
  intel64 := hparams ▸ h.intel64
  paging := hpaging.trans h.paging
  bits := hparams ▸ h.bits
  code_le := hparams ▸ h.code_le
  launch_canonical := hparams ▸ h.launch_canonical
  code_in_launch := hparams ▸ h.code_in_launch
  mem_wf := hwf
  mem_in_launch := hparams ▸ hcells
  translate := hparams ▸ h.translate

/-- Settles O48: the word a step may write keeps the one form of memory and lies in `LaunchMem`. -/
theorem stepKeepsAdmitted : Obligations.StepKeepsAdmitted := by
  intro tr s t hs h
  have hcontrol := stepKeepsControlState s t h
  obtain hm | ⟨a, v, hm, ⟨hw, hacc⟩, -⟩ := step_mem h
  · exact admitted_of_same hs hcontrol.mode hcontrol.params hcontrol.paging (hm ▸ hs.mem_wf) (hm ▸ hs.mem_in_launch)
  · refine admitted_of_same hs hcontrol.mode hcontrol.params hcontrol.paging (hm ▸ writeWord_wf s.mem a v hw hs.mem_wf)
      fun c hc => ?_
    rcases mem_writeWord s.mem a v c (hm ▸ hc) with hold | ⟨k, hk, he⟩
    · exact hs.mem_in_launch c hold
    · exact he ▸ (hacc k hk).2

/-! ### Runs -/

/-- A transition is a step, or sets `fault` and changes nothing else. -/
theorem advance_cases (s : State) : step s = .next (advance s) ∨ ∃ f, advance s = { s with fault := f } := by
  unfold advance
  cases h : step s with
  | next t => exact .inl rfl
  | refused r => exact .inr ⟨.refused, rfl⟩
  | fault r =>
    cases r with
    | stuck a => exact .inr ⟨.stuck, rfl⟩
    | ended f => exact .inr ⟨s.fault, rfl⟩
    | final => exact .inr ⟨s.fault, rfl⟩

theorem advance_admitted {tr : Nat → Option Nat} {s : State} (h : s.Admitted tr) : (advance s).Admitted tr := by
  obtain hstep | ⟨f, he⟩ := advance_cases s
  · exact stepKeepsAdmitted tr s _ h hstep
  · rw [he]
    exact admitted_of_same h rfl rfl rfl h.mem_wf h.mem_in_launch

theorem advance_params (s : State) : (advance s).params = s.params := by
  obtain hstep | ⟨f, he⟩ := advance_cases s
  · exact step_params hstep
  · rw [he]

theorem advance_code (s : State) {a : Nat} (ha : inCode s.params a = true) : (advance s).byteAt a = s.byteAt a := by
  obtain hstep | ⟨f, he⟩ := advance_cases s
  · exact programBytesAreImmutable s _ hstep a ha
  · rw [he]; rfl

/-- The premises, the parameters and the program along a run, from any admitted state. -/
theorem after_admitted {tr : Nat → Option Nat} (n : Nat) {s : State} (h : s.Admitted tr) :
    (s.after n).Admitted tr ∧ (s.after n).params = s.params ∧
      ∀ a, inCode s.params a = true → (s.after n).byteAt a = s.byteAt a := by
  induction n generalizing s with
  | zero => exact ⟨h, rfl, fun _ _ => rfl⟩
  | succ n ih =>
    obtain ⟨hadm, hparams, hcode⟩ := ih (advance_admitted h)
    rw [advance_params] at hparams hcode
    exact ⟨hadm, hparams, fun a ha => (hcode a ha).trans (advance_code s ha)⟩

/-- Settles O49: by induction on the number of transitions. -/
theorem runsStayAdmitted : Obligations.RunsStayAdmitted := fun _ _ n hs => after_admitted n hs.admitted

theorem after_of_advance_eq {s : State} (h : advance s = s) (n : Nat) : s.after n = s := by
  induction n with
  | zero => rfl
  | succ n ih => rw [State.after, h, ih]

theorem advance_of_ended {s : State} (h : s.fault ≠ .none ∨ s.executes = true ∧ s.Final) : advance s = s := by
  rcases h with hf | ⟨he, hfinal⟩
  · rw [advance, step_of_fault hf]; rfl
  · rw [advance, step_of_final he hfinal]; rfl

/-- Settles O53: where there is no step nothing changes, and a stop records itself. -/
theorem runEndsForGood : Obligations.RunEndsForGood := fun s =>
  ⟨fun n h => after_of_advance_eq (advance_of_ended h) n, fun r h => by rw [advance, h]; rfl,
    fun a h => by rw [advance, h]; rfl⟩

/-- The launch memory of the reset state: its 48-bit canonical addresses. -/
theorem inLaunch_reset_iff (a : Nat) :
    inLaunch State.reset.params a = true ↔ a < 2 ^ 47 ∨ 2 ^ 64 - 2 ^ 47 ≤ a ∧ a < 2 ^ 64 := by
  simp [inLaunch, State.reset, resetParams]

/-- Settles O50: the two regions of `LaunchMem` are the canonical addresses, and the program is empty. -/
theorem resetIsALaunchState : Obligations.ResetIsALaunchState := by
  refine ⟨fun tr htr => ⟨?admitted, rfl, rfl⟩, rfl, rfl⟩
  case admitted =>
    have hcode : ∀ a, inCode State.reset.params a = false := fun a => by
      simp [inCode, State.reset, resetParams]
    exact {
      mode64 := rfl
      intel64 := rfl
      paging := rfl
      bits := by decide
      code_le := by decide
      launch_canonical := fun a ha => by
        rw [inLaunch_reset_iff] at ha
        have hlt : a < addressSpace := by unfold addressSpace; omega
        exact ⟨hlt, (canonicalAt_iff_ranges (by decide) hlt).mpr (ha.imp id And.left)⟩
      code_in_launch := fun a ha => by simp [hcode] at ha
      mem_wf := reset_mem_wf
      mem_in_launch := fun c hc => absurd hc (by simp [State.reset])
      translate := htr }

/-! ### PUSH and then POP -/

/-- Settles O40: POP reads the eight bytes that PUSH wrote, at the address it left in RSP. -/
theorem popAfterPushRestores : Obligations.PopAfterPushRestores := by
  intro s t rex rex' rd rd' hpush ht hd
  obtain ⟨he, ⟨rfl, hc⟩ | ⟨ref, a, -, -, rfl⟩⟩ := exec_next hpush
  · obtain ⟨hcheck, -⟩ := hc _ rfl
    have hacc : s.Accessible (s.reg Reg.rsp - 8#64).toNat 8 := by
      have := (checkBytes_ok_iff _ _ _ _).mp hcheck
      rwa [refAddr_stackRef] at this
    have hrsp : (completed (.push rex rd) s).reg Reg.rsp = s.reg Reg.rsp - 8#64 := by simp [completed]
    have hmem : (completed (.push rex rd) s).mem =
        s.mem.writeWord (s.reg Reg.rsp - 8#64).toNat (s.reg (regNum (rexB rex) rd)) := by
      simp [completed, refAddr_stackRef]
    have hread : (completed (.push rex rd) s).mem.readWord (s.reg Reg.rsp - 8#64).toNat =
        s.reg (regNum (rexB rex) rd) := by
      rw [hmem]; exact littleEndianReadBack.1 s.mem _ 8 _
    refine ⟨_, exec_pop he (hrsp.symm ▸ hacc), ?value, fun r hr => ?others⟩
    case value => rw [completed_pop, ipWrite_reg, reg_setReg_same, hrsp, hread]
    case others =>
      rw [completed_pop, ipWrite_reg, reg_setReg_other _ _ hr, reg_setReg, hrsp]
      split
      · next h => rw [h]; exact BitVec.sub_add_cancel _ _
      · next h => exact completed_reg_other (by simpa [destRegs] using h)
  · simp at ht

/-! ### What no step reads -/

theorem withUnread_base64 (s : State) (u : Unread) (seg : Seg) : base64 (s.withUnread u) seg = base64 s seg := by
  cases seg <;> rfl

theorem withUnread_baseValue (s : State) (u : Unread) (next : Word) (b : Base) :
    baseValue (s.withUnread u) next b = baseValue s next b := by cases b <;> rfl

theorem withUnread_indexValue (s : State) (u : Unread) (r : Option Reg) :
    indexValue (s.withUnread u) r = indexValue s r := by cases r <;> rfl

theorem withUnread_ea64 (s : State) (u : Unread) (next : Word) (ref : Ref) :
    ea64 (s.withUnread u) next ref = ea64 s next ref := by
  simp only [ea64, ea, withUnread_baseValue, withUnread_indexValue]

theorem withUnread_refAddr (s : State) (u : Unread) (next : Word) (ref : Ref) :
    refAddr (s.withUnread u) next ref = refAddr s next ref := by
  simp only [refAddr, linear, withUnread_base64, withUnread_ea64]

theorem withUnread_dataRef (s : State) (u : Unread) (i : Instr) : dataRef (s.withUnread u) i = dataRef s i := by
  cases i with
  | movLoad p rex reg rm => cases rm <;> rfl
  | movStore p rex reg rm => cases rm <;> rfl
  | _ => rfl

theorem withUnread_nextPc (s : State) (u : Unread) (i : Instr) : (s.withUnread u).nextPc i = s.nextPc i := rfl

theorem withUnread_completed (s : State) (u : Unread) (i : Instr) :
    completed i (s.withUnread u) = (completed i s).withUnread u := by
  cases i with
  | lea a32 rex reg m => simp only [completed, withUnread_nextPc, withUnread_ea64]; rfl
  | movLoad p rex reg rm =>
    cases rm with
    | reg src => rfl
    | mem m => simp only [completed, withUnread_nextPc, withUnread_refAddr]; rfl
  | movStore p rex reg rm =>
    cases rm with
    | reg dst => rfl
    | mem m => simp only [completed, withUnread_nextPc, withUnread_refAddr]; rfl
  | _ => simp only [completed, withUnread_nextPc, withUnread_refAddr]; rfl

theorem withUnread_admitted (s : State) (u : Unread) (c : Admit) (k : Result) :
    (s.withUnread u).admitted c (mapNext (·.withUnread u) k) = mapNext (·.withUnread u) (s.admitted c k) := by
  cases c <;> rfl

theorem withUnread_inMode64 (s : State) (u : Unread) (k : Result) :
    (s.withUnread u).inMode64 (mapNext (·.withUnread u) k) = mapNext (·.withUnread u) (s.inMode64 k) := by
  have he : (s.withUnread u).executes = s.executes := rfl
  unfold State.inMode64
  rw [he]
  split <;> rfl

theorem mapNext_ite (f : State → State) (c : Prop) [Decidable c] (k k' : Result) :
    mapNext f (if c then k else k') = if c then mapNext f k else mapNext f k' := apply_ite _ _ _ _

theorem withUnread_exec (s : State) (u : Unread) (i : Instr) :
    exec i (s.withUnread u) = mapNext (·.withUnread u) (exec i s) := by
  rw [exec_eq, exec_eq, ← withUnread_inMode64, withUnread_dataRef, withUnread_completed]
  congr 1
  cases dataRef s i with
  | none => rfl
  | some ref =>
    simp only [← withUnread_admitted, mapNext_ite, refCheck, withUnread_nextPc, withUnread_refAddr]
    rfl

theorem withUnread_fetchFrom (s : State) (u : Unread) (fuel : Nat) (got : List Byte) :
    fetchFrom (s.withUnread u) (fun i => exec i (s.withUnread u)) fuel got =
      mapNext (·.withUnread u) (fetchFrom s (fun i => exec i s) fuel got) := by
  induction fuel generalizing got with
  | zero => rfl
  | succ fuel ih =>
    cases hd : decode got with
    | ok i rest => rw [fetchFrom_ok hd, fetchFrom_ok hd, withUnread_exec]
    | refuse r => rw [fetchFrom_refuse hd, fetchFrom_refuse hd]; rfl
    | more =>
      rw [fetchFrom_more hd, fetchFrom_more hd, ih, withUnread_admitted]
      rfl

/-- Settles O54: each test, each check, the fetch and every meaning answer the same, up to the components replaced. -/
theorem unreadStateChangesNothing : Obligations.UnreadStateChangesNothing := by
  intro s u
  by_cases hf : s.fault = .none
  · have hfetch : fetch (s.withUnread u) (fun i => exec i (s.withUnread u)) =
        mapNext (·.withUnread u) (fetch s fun i => exec i s) := withUnread_fetchFrom s u _ []
    rw [step_of_noFault hf, step_of_noFault (s := s.withUnread u) hf, ← withUnread_inMode64, hfetch]
    simp only [mapNext_ite]
    rfl
  · rw [step_of_fault hf, step_of_fault (s := s.withUnread u) hf]
    rfl

end Sys2Proof.Proofs
end

section
/-! Sizes, linear and physical addresses of the operating modes (20_memory.md sections 1 to 7; 40_address_calculation.md
R82). -/

namespace Sys2Proof.Proofs

open Sys2Proof Sys2Proof.Machine

/-! ### Address and operand sizes -/

/-- Settles O55: for each of the two default sizes, mode by mode. -/
theorem addressSizesOfEachMode : Obligations.AddressSizesOfEachMode := by
  intro d
  refine ⟨fun m hm => ?segmented, rfl, rfl, rfl, rfl, fun o => ⟨rfl, rfl⟩, fun m o hm => if_neg hm, rfl⟩
  case segmented =>
    simp only [List.mem_cons, List.not_mem_nil, or_false] at hm
    obtain rfl | rfl := hm
    · cases d <;> exact ⟨rfl, rfl⟩
    · cases d <;> exact ⟨rfl, rfl⟩

/-! ### Linear addresses -/

/-- Settles O60: the two bounds of the real-address-mode model, on the offset and on the sum. -/
theorem realAddressesAreCapped : Obligations.RealAddressesAreCapped := by
  intro fp a
  simp only [realLinear, offsetInSegment_real, Bool.and_eq_true, decide_eq_true_eq, Option.ite_none_right_eq_some,
    Option.some.injEq]
  unfold Config.realLinearSpaceBytes
  omega

theorem compatLinear_eq_some_iff (base : BitVec 16 → Nat) (s : State) (next : Word) (sel : BitVec 16) (ref : Ref)
    (a : Nat) : compatLinear base s next sel ref = some a ↔ a = base sel + (ea64 s next ref).toNat ∧ a < 2 ^ 32 := by
  simp only [compatLinear, Option.ite_none_right_eq_some, Option.some.injEq]
  unfold Config.linearSpaceBytes
  omega

theorem ea64_lt_of_ne_a64 {ref : Ref} (h : ref.asz ≠ .a64) (s : State) (next : Word) :
    (ea64 s next ref).toNat < 2 ^ 32 :=
  (ea64_lt s next ref).trans_le (Nat.pow_le_pow_right (by decide) (asize_bits_le_of_ne_a64 h))

/-- From 33 implemented bits on, bit 32 and those above it are the ones that must agree. -/
theorem canonical_of_lt {n : Nat} (h33 : 33 ≤ n) (h64 : n ≤ 64) {a : Word} (ha : a.toNat < 2 ^ 32) :
    canonical n a = true :=
  (canonical_iff_ranges h64 a).mpr (.inl (ha.trans_le (Nat.pow_le_pow_right (by decide) (by omega))))

/-- Settles O59: a short address size keeps the effective address low, and low addresses are canonical. -/
theorem compatibilityAddressesAreLow : Obligations.CompatibilityAddressesAreLow := by
  intro base s next sel ref hasz
  have hea := ea64_lt_of_ne_a64 hasz s next
  refine ⟨hea, compatLinear_eq_some_iff base s next sel ref, fun h33 h64 =>
    ⟨canonical_of_lt h33 h64 hea, fun a ha => ?_⟩⟩
  obtain ⟨-, hlt⟩ := (compatLinear_eq_some_iff base s next sel ref a).mp ha
  exact canonical_of_lt h33 h64 (by rw [BitVec.toNat_ofNat]; omega)

/-! ### Physical addresses -/

/-- The mapping of a mode that is neither 64-bit mode nor SMM follows its flags (R31, R32, R34). -/
theorem mapping_of_flags {m : Mode} (h64 : m ≠ .mode64) (hsmm : m ≠ .smm) (paging pae : Bool) :
    mapping m paging pae = some (if !paging then .direct else if pae then .paePaging else .paging) := by
  cases m with
  | mode64 => exact absurd rfl h64
  | smm => exact absurd rfl hsmm
  | _ => rfl

/-- Settles O57: the mapping each mode has, and what it gives. -/
theorem directMappingIsOneToOne : Obligations.DirectMappingIsOneToOne := by
  intro tr s pae a b
  refine ⟨rfl, Option.some.inj, rfl, rfl, fun h64 hsmm => ?flags, fun h64 => ?mode64, fun hsmm => ?smm⟩
  case flags =>
    refine ⟨fun hp => ?direct, fun hp => ?paged⟩
    case direct => rw [State.physical, mapping_of_flags h64 hsmm, hp]; rfl
    case paged => rw [State.physical, mapping_of_flags h64 hsmm, hp]; cases pae <;> rfl
  case mode64 => rw [State.physical, h64, mapping_mode64]; rfl
  case smm => rw [State.physical, hsmm, mapping_smm]; rfl

/-- What a physical address needs under each mapping. -/
def reachesUnder (p : Params) (m : Mode) (a : Nat) : Mapping → Prop
  | .direct => inLinearSpace p m a = some true
  | .paging => a < 2 ^ 32
  | .paePaging => a < 2 ^ 32 ∨ m = .protectedMode ∨ ia32e m = true

theorem physicalReachable_iff {p : Params} {m : Mode} {paging pae : Bool} {k : Mapping}
    (hk : mapping m paging pae = some k) (a : Nat) :
    physicalReachable p m paging pae a = true ↔ modeExists p m = true ∧ a < 2 ^ p.paBits ∧ reachesUnder p m a k := by
  cases k <;> simp [physicalReachable, hk, inPhysicalSpace, reachesUnder, and_assoc, or_assoc]

theorem physicalReachable_smm (p : Params) (paging pae : Bool) (a : Nat) :
    physicalReachable p .smm paging pae a = false := by
  simp [physicalReachable]

/-- The linear addresses outside 64-bit mode are all below `2^32`. -/
theorem lt_of_inLinearSpace {p : Params} {m : Mode} {a : Nat} (h64 : m ≠ .mode64) (h : inLinearSpace p m a = some true) :
    a < 2 ^ 32 := by
  cases m with
  | mode64 => exact absurd rfl h64
  | smm => simp [inLinearSpace, Mode.space, AddressSpace.contains] at h
  | realAddress =>
    have : a < 2 ^ 20 := by simpa using h
    omega
  | virtual8086 =>
    have : a < 2 ^ 20 := by simpa using h
    omega
  | protectedMode => simpa using h
  | compatibility => simpa using h

theorem not_ia32e_of_modeExists {p : Params} {m : Mode} (hp : p.intel64 = false) (h : modeExists p m = true) :
    ia32e m = false := by
  simpa [modeExists, hp] using h

/-- R46: without Intel 64 an address at or above `2^32` takes protected mode, paging and PAE. -/
theorem physicalReachable_high_iff {p : Params} (hp : p.intel64 = false) {a : Nat} (ha : 2 ^ 32 ≤ a) (m : Mode)
    (paging pae : Bool) : physicalReachable p m paging pae a = true ↔
      a < 2 ^ p.paBits ∧ m = .protectedMode ∧ paging = true ∧ pae = true := by
  constructor
  · intro h
    have hsmm : m ≠ .smm := by rintro rfl; simp [physicalReachable_smm] at h
    have h64 : m ≠ .mode64 := by
      rintro rfl
      simp [physicalReachable, modeExists, hp, ia32e] at h
    obtain ⟨hm, hpa, hreach⟩ := (physicalReachable_iff (mapping_of_flags h64 hsmm paging pae) a).mp h
    cases paging with
    | false => exact absurd (lt_of_inLinearSpace h64 hreach) (by omega)
    | true =>
      cases pae with
      | false => exact absurd (show a < 2 ^ 32 from hreach) (by omega)
      | true =>
        obtain hlt | hprot | hia : a < 2 ^ 32 ∨ m = .protectedMode ∨ ia32e m = true := hreach
        · omega
        · exact ⟨hpa, hprot, rfl, rfl⟩
        · simp [not_ia32e_of_modeExists hp hm] at hia
  · rintro ⟨hpa, rfl, rfl, rfl⟩
    exact (physicalReachable_iff (k := .paePaging) rfl a).mpr ⟨by simp [modeExists, ia32e], hpa, Or.inr (Or.inl rfl)⟩

theorem mode_space_eq_smram_iff (m : Mode) : m.space = .smram ↔ m = .smm := by
  cases m <;> simp [Mode.space]

/-- Settles O58: each clause from what its mapping reaches. -/
theorem physicalAddressesReached : Obligations.PhysicalAddressesReached := by
  intro p paging pae a
  refine ⟨rfl, fun hp => ?mode64, fun hp ha m => physicalReachable_high_iff hp ha m paging pae, fun m hm => ?low20,
    fun m hm hexists => ?low32, fun m h64 h => ?noPae, rfl, fun m hm => (mode_space_eq_smram_iff m).not.mpr hm,
    physicalReachable_smm p paging pae a⟩
  case mode64 =>
    rw [physicalReachable_iff (mapping_mode64 paging pae)]
    simp [modeExists, hp, reachesUnder, ia32e]
  case low20 =>
    simp only [List.mem_cons, List.not_mem_nil, or_false] at hm
    obtain rfl | rfl := hm
    · rw [physicalReachable_iff rfl]; simp [modeExists, ia32e, reachesUnder]
    · rw [physicalReachable_iff rfl]; simp [modeExists, ia32e, reachesUnder]
  case low32 =>
    simp only [List.mem_cons, List.not_mem_nil, or_false] at hm
    obtain rfl | rfl := hm
    · rw [physicalReachable_iff rfl]; simp [hexists, reachesUnder]
    · rw [physicalReachable_iff rfl]; simp [hexists, reachesUnder]
  case noPae =>
    have hsmm : m ≠ .smm := by rintro rfl; simp [physicalReachable_smm] at h
    obtain ⟨-, -, hreach⟩ := (physicalReachable_iff (mapping_of_flags h64 hsmm paging false) a).mp h
    cases paging with
    | false => exact lt_of_inLinearSpace h64 hreach
    | true => exact hreach

end Sys2Proof.Proofs
end
